-- ==== Sys2Proof/Word.lean ====
section
/-! DEFINITION. The bit-vector types of the core: data words, command words, BitEngine control words. -/

namespace Sys2Proof

/-- A `u32`, the width of every data word (00_scope.md R8 `WORD_BITS`, R10). Bit 31 is the most
significant (R11), which is how `BitVec` numbers bits. -/
abbrev Word := BitVec 32

/-- A command word as presented on `cmd[47:0]` (30_encoding.md R70). -/
abbrev CmdWord := BitVec 48

/-- A BitEngine control word, format `BE`, 6 bits (30_encoding.md R79). -/
abbrev BeWord := BitVec 6

end Sys2Proof
end

