-- ==== Sys2Proof/Syntax.lean ====
section
/-! DEFINITION. The instructions: one constructor per row of spec/opcode_table.json. -/

namespace Sys2Proof

/-- One constructor per row of the opcode table. The eight commands (30_encoding.md R72, R73) carry their operand
fields whole, as wide as the word has them: the contract ranges of R73 are checked when a command executes, never
by narrowing a field. `rotr` and `shr` are BitEngine's two control words (R79), whose amount has 5 bits. -/
inductive Instr where
  /-- `INIT` (42_finalization.md R160). -/
  | init
  /-- `PUSH_BIT` (41_ingestion.md R123): `data` is the bit, contract range 0..1. -/
  | pushBit (data : BitVec 32)
  /-- `PUSH_BITS` (R124): `bit` is the field `aux`, contract range 0..1; `count` is the field `data`, any `u32`. -/
  | pushBits (bit : BitVec 12) (count : BitVec 32)
  /-- `PUSH_VAL_LO` (R125): `width` is the field `aux`, contract range 1..32; `value` is the field `data`. -/
  | pushValLo (width : BitVec 12) (value : BitVec 32)
  /-- `PUSH_VAL_HI` (R126): fields as for `PUSH_VAL_LO`. -/
  | pushValHi (width : BitVec 12) (value : BitVec 32)
  /-- `PUSH_BYTE` (R127): `value` is the field `data`, contract range 0..255. -/
  | pushByte (value : BitVec 32)
  /-- `PUSH_WORD` (R128): `value` is the field `data`, any `u32`. -/
  | pushWord (value : BitVec 32)
  /-- `HASH` (`preserve = false`) and `HASH.P` (`preserve = true`) (42_finalization.md R150). -/
  | hash (preserve : Bool)
  /-- `ROTR`, BitEngine rotate right by `n` (40_bitengine.md R100). -/
  | rotr (n : Fin 32)
  /-- `SHR`, BitEngine logical shift right by `n` (40_bitengine.md R101). -/
  | shr (n : Fin 32)
  deriving DecidableEq, Repr

end Sys2Proof
end

