-- ==== Sys2Proof/Decode.lean ====
section
/-! DEFINITION. The decoder (30_encoding.md R71 to R79), total on every word, and the encoder after it. -/

namespace Sys2Proof

/-- The two encoding spaces: a command word on the command port (30_encoding.md R70), and a BitEngine control word
(R79), which is not reachable from the command port. -/
inductive Code where
  | cmd (c : CmdWord)
  | be (c : BeWord)
  deriving DecidableEq, Repr

/-- Why a command word is no command (30_encoding.md R76): steps 3 and 4 of R74, in that order. -/
inductive Reject where
  /-- `op` is `0x0` or `0x9..0xF`. -/
  | reservedOpcode
  /-- A must-be-zero field of the opcode is not zero. -/
  | mustBeZero
  deriving DecidableEq, Repr

/-- Field `op`, bits 47..44 (30_encoding.md R71). -/
def opField (c : CmdWord) : BitVec 4 := c.extractLsb' 44 4

/-- Field `aux`, bits 43..32 (30_encoding.md R71). -/
def auxField (c : CmdWord) : BitVec 12 := c.extractLsb' 32 12

/-- Field `data`, bits 31..0 (30_encoding.md R71). -/
def dataField (c : CmdWord) : BitVec 32 := c.extractLsb' 0 32

/-- `i`, provided the must-be-zero fields are zero (step 4 of 30_encoding.md R74). -/
def requireZero (zero : Bool) (i : Instr) : Except Reject Instr :=
  if zero then .ok i else .error .mustBeZero

/-- Decoding a command word: opcode map R72, must-be-zero fields R73, steps 3 and 4 of the decoding order R74.
Contract ranges (step 5) are no part of decoding. Total on all 2^48 words (R77). -/
def decodeCommand (c : CmdWord) : Except Reject Instr :=
  let aux := auxField c
  let data := dataField c
  match (opField c).toNat with
  | 1 => requireZero (aux == 0 && data == 0) .init
  | 2 => requireZero (aux == 0) (.pushBit data)
  | 3 => .ok (.pushBits aux data)
  | 4 => .ok (.pushValLo aux data)
  | 5 => .ok (.pushValHi aux data)
  | 6 => requireZero (aux == 0) (.pushByte data)
  | 7 => requireZero (aux == 0) (.pushWord data)
  | 8 => requireZero (aux.extractLsb' 1 11 == 0 && data == 0) (.hash (aux.getLsbD 0))
  | _ => .error .reservedOpcode

/-- Decoding a BitEngine control word: bit 5 `fn` (0 is `ROTR`, 1 is `SHR`), bits 4..0 the amount
(30_encoding.md R79). Every control word is one of the two. -/
def decodeBitEngine (c : BeWord) : Instr :=
  let n : Fin 32 := (c.extractLsb' 0 5).toFin
  if c.getLsbD 5 then .shr n else .rotr n

/-- The decoder, over both encoding spaces. -/
def decode : Code → Except Reject Instr
  | .cmd c => decodeCommand c
  | .be c => .ok (decodeBitEngine c)

/-- A word of format `CMD` from its three fields, `op` most significant (30_encoding.md R71). -/
def commandWord (op : BitVec 4) (aux : BitVec 12) (data : BitVec 32) : CmdWord := op ++ aux ++ data

/-- A control word of format `BE` from its two fields, `fn` most significant (30_encoding.md R79). -/
def controlWord (fn : BitVec 1) (n : Fin 32) : BeWord := fn ++ (BitVec.ofFin n : BitVec 5)

/-- The word of an instruction, from the opcode map R72 and the field use R73 (commands) and R79 (BitEngine). -/
def encode : Instr → Code
  | .init => .cmd (commandWord 0x1 0 0)
  | .pushBit data => .cmd (commandWord 0x2 0 data)
  | .pushBits bit count => .cmd (commandWord 0x3 bit count)
  | .pushValLo width value => .cmd (commandWord 0x4 width value)
  | .pushValHi width value => .cmd (commandWord 0x5 width value)
  | .pushByte value => .cmd (commandWord 0x6 0 value)
  | .pushWord value => .cmd (commandWord 0x7 0 value)
  | .hash preserve => .cmd (commandWord 0x8 (if preserve then 1 else 0) 0)
  | .rotr n => .be (controlWord 0 n)
  | .shr n => .be (controlWord 1 n)

/-- The instruction the decoder reads from a row's bits. A row of the table is one 48-bit command word (`nbits` 48)
or one 6-bit control word (`nbits` 6, 8 in whole bytes), numbered with bit 0 least significant, which is also the
spec's numbering (00_scope.md R11). A number too wide for the word is no instruction. -/
def decodeTableWord (nbits w : Nat) : Option Instr :=
  if nbits ≤ 8 then
    if w < 2 ^ 6 then some (decodeBitEngine (BitVec.ofNat 6 w)) else none
  else if w < 2 ^ 48 then
    match decodeCommand (BitVec.ofNat 48 w) with
    | .ok i => some i
    | .error _ => none
  else none

end Sys2Proof
end

