-- ==== Sys2Proof/Machine/State.lean ====
section
/-! DEFINITION. The state of one engine (10_state.md R20), its reset value (R40), and the ways a step can stop. -/

namespace Sys2Proof.Machine

/-- The sequencing state (10_state.md R28). Between commands it is `collecting`. -/
inductive Phase where
  | collecting
  | compressing
  deriving DecidableEq, Repr

/-- The register `err` (10_state.md R30) by the names of 60_exceptions.md R210. The 4-bit values 4..15 are never
produced, and 93_implementation_defined.md U11 lets a model use these four. `Err.code` gives the bits. -/
inductive Err where
  /-- 0: no fault. -/
  | noFault
  /-- 1, `ERR_ILLEGAL` (60_exceptions.md R211). -/
  | errIllegal
  /-- 2, `ERR_RANGE` (60_exceptions.md R212). -/
  | errRange
  /-- 3, `ERR_LENGTH` (60_exceptions.md R217). -/
  | errLength
  deriving DecidableEq, Repr

/-- What the outside presents to the engine at one clock edge. Inputs, not engine state (10_state.md R43): they are
data of the model's state because `step` takes nothing but a state. DESIGN CHOICE, log entry 1. -/
inductive PortEvent where
  /-- `rst` asserted (10_state.md R36). -/
  | reset
  /-- `cmd_valid = 1` with `cmd = c` (10_state.md R37). -/
  | command (c : CmdWord)
  /-- BitEngine's own inputs: a control word and the data input `x` (30_encoding.md R79). The model's way to evaluate
  the unit alone; not reachable from the command port. DESIGN CHOICE, log entry 2. -/
  | bitEngine (ctl : BeWord) (x : Word)
  deriving DecidableEq, Repr

/-- The whole state of one engine, then the model's own fields `beX`, `beY`, `host` (INVENTORY.md, State). `pos` is
a function of `total` (10_state.md R27), and `w`, `v` and the save area of a peek live inside one command
(R33 to R35), so none of them is a field. -/
structure State where
  /-- `h[0..7]`, the running hash value (10_state.md R21). -/
  h : Vector Word 8
  /-- `chunk[0..15]`, the chunk buffer (10_state.md R22). -/
  chunk : Vector Word 16
  /-- `total`, bits consumed (10_state.md R31). -/
  total : BitVec 64
  /-- `D[0..7]`, the digest register (10_state.md R24). -/
  D : Vector Word 8
  /-- `digest_valid` (10_state.md R29). -/
  digestValid : Bool
  /-- `err`, the fault code (10_state.md R30). -/
  err : Err
  /-- `phase` (10_state.md R28). -/
  phase : Phase
  /-- The model's own: BitEngine's data input `x` when evaluated alone (log entry 2). -/
  beX : Word
  /-- The model's own: BitEngine's data output `y` of the latest such evaluation (log entry 2). -/
  beY : Word
  /-- The model's own: what the outside will present, first event first (log entry 1). -/
  host : List PortEvent
  deriving DecidableEq, Repr

/-- The state after `Reset` (10_state.md R40, 70_reset_and_hazards.md R240). `beX`, `beY` and `host` have no reset
value in the spec: DESIGN CHOICE zero and empty, log entries 1 and 2. -/
def State.reset : State where
  h := IV
  chunk := Vector.replicate 16 0
  total := 0
  D := Vector.replicate 8 0
  digestValid := false
  err := .noFault
  phase := .collecting
  beX := 0
  beY := 0
  host := []

/-- Reasons for the machine to stop. It has none: a fault of this hardware is a value of `err` and the machine goes
on (60_exceptions.md R214, R215), every word has an outcome (30_encoding.md R77) and no command hangs
(70_reset_and_hazards.md R253). Log entry 5. -/
inductive Fault where
  deriving DecidableEq, Repr

/-- Reasons for the model to give an instruction no meaning. -/
inductive Refusal where
  /-- Raised by an arm of `exec` whose instruction has no meaning yet; no arm is left so. Safe: nothing can be proved
  about a run through it. -/
  | notModelled (mnemonic : String)
  deriving DecidableEq, Repr

end Sys2Proof.Machine
end

