-- ==== Sys2Proof/Machine/BitEngine.lean ====
section
/-! DEFINITION. BitEngine, the rotate-shift unit (40_bitengine.md): the two pure functions and the meanings of its
two control words. -/

namespace Sys2Proof.Machine

/-- `rotr(x, n)` (40_bitengine.md R100): bit `i` of the result is bit `(i + n) mod 32` of `x`. -/
def rotr (x : Word) (n : Fin 32) : Word := x.rotateRight n.val

/-- `shr(x, n)` (40_bitengine.md R101): logical, the vacated high bits are 0. -/
def shr (x : Word) (n : Fin 32) : Word := x >>> n.val

/-- `ROTR`: the unit's output `y` is `rotr` of its input `x` (30_encoding.md R79). No flag, no fault, no register. -/
def execRotr (n : Fin 32) (s : State) : Host.Outcome State Fault Refusal :=
  .next { s with beY := rotr s.beX n }

/-- `SHR`: the unit's output `y` is `shr` of its input `x` (30_encoding.md R79). No flag, no fault, no register. -/
def execShr (n : Fin 32) (s : State) : Host.Outcome State Fault Refusal :=
  .next { s with beY := shr s.beX n }

end Sys2Proof.Machine
end

