-- ==== Sys2Proof/Config.lean ====
section
/-! DEFINITION. The sizes and limits of the core (00_scope.md R8, R9). Every one is fixed for this hardware, and no
rule of the spec leaves a value open that a step would have to supply, so this file holds no free value. -/

namespace Sys2Proof.Config

/-- Bits per chunk (R8 `CHUNK_BITS`). -/
def chunkBits : Nat := 512

/-- Bits of the appended length (R8 `LEN_FIELD_BITS`). -/
def lenFieldBits : Nat := 64

/-- A message of `L` bits is supported iff `L < maxMsgBits` (R9 `MAX_MSG_BITS`, decision D4 of the spec). -/
def maxMsgBits : Nat := 2 ^ 32

/-- The legal widths of a value push are `valWidthMin .. valWidthMax` (R8 `VAL_WIDTH_MIN`, `VAL_WIDTH_MAX`). -/
def valWidthMin : Nat := 1

/-- See `valWidthMin`. -/
def valWidthMax : Nat := 32

end Sys2Proof.Config
end

