-- ==== Sys2Proof/Machine/Compression.lean ====
section
/-! DEFINITION. The message schedule and the compression function as pure functions (43_compression.md). All
additions are on `BitVec 32`, hence modulo 2^32 with silent wrap (R188). -/

namespace Sys2Proof.Machine

/-- `sig0` (43_compression.md R182). Its third term is a shift. -/
def sig0 (x : Word) : Word := rotr x 7 ^^^ rotr x 18 ^^^ shr x 3

/-- `sig1` (43_compression.md R182). Its third term is a shift. -/
def sig1 (x : Word) : Word := rotr x 17 ^^^ rotr x 19 ^^^ shr x 10

/-- `Sig0` (43_compression.md R184). -/
def bigSig0 (a : Word) : Word := rotr a 2 ^^^ rotr a 13 ^^^ rotr a 22

/-- `Sig1` (43_compression.md R184). -/
def bigSig1 (e : Word) : Word := rotr e 6 ^^^ rotr e 11 ^^^ rotr e 25

/-- `Ch` (43_compression.md R184). -/
def ch (e f g : Word) : Word := (e &&& f) ^^^ (~~~e &&& g)

/-- `Maj` (43_compression.md R184). -/
def maj (a b c : Word) : Word := (a &&& b) ^^^ (a &&& c) ^^^ (b &&& c)

/-- One more schedule word on a schedule kept newest first: with `i` words there, `w[i-2]` stands at place 1,
`w[i-7]` at 6, `w[i-15]` at 14 and `w[i-16]` at 15 (43_compression.md R181). -/
def scheduleStep (ws : List Word) : List Word :=
  (ws.getD 15 0 + sig0 (ws.getD 14 0) + ws.getD 6 0 + sig1 (ws.getD 1 0)) :: ws

/-- `n` more schedule words, newest first. -/
def extendSchedule : Nat → List Word → List Word
  | 0, ws => ws
  | n + 1, ws => extendSchedule n (scheduleStep ws)

theorem extendSchedule_length (n : Nat) (ws : List Word) :
    (extendSchedule n ws).length = n + ws.length := by
  induction n generalizing ws with
  | zero => simp [extendSchedule]
  | succ n ih => rw [extendSchedule, ih]; simp [scheduleStep]; omega

/-- `w[0..63]` from the sixteen chunk words (43_compression.md R181): the chunk verbatim, then 48 more. -/
def schedule (c : Vector Word 16) : Vector Word 64 :=
  ⟨(extendSchedule 48 c.toList.reverse).reverse.toArray, by simp [extendSchedule_length]⟩

/-- `temp1` of a round with constant `k` and schedule word `w` (43_compression.md R183). -/
def temp1 (v : Vector Word 8) (k w : Word) : Word := v[7] + bigSig1 v[4] + ch v[4] v[5] v[6] + k + w

/-- `temp2` of a round (43_compression.md R183). -/
def temp2 (v : Vector Word 8) : Word := bigSig0 v[0] + maj v[0] v[1] v[2]

/-- One round: the simultaneous update of the working variables (43_compression.md R183, R185). -/
def round (v : Vector Word 8) (k w : Word) : Vector Word 8 :=
  #v[temp1 v k w + temp2 v, v[0], v[1], v[2], v[3] + temp1 v k w, v[4], v[5], v[6]]

/-- The working variables after the first `n` rounds, started at `h` (43_compression.md R183): round `i` takes `K[i]`
and `w[i]`. -/
def roundsUpTo (n : Nat) (h : Vector Word 8) (w : Vector Word 64) : Vector Word 8 :=
  ((K.toList.zip w.toList).take n).foldl (fun v kw => round v kw.1 kw.2) h

/-- All 64 rounds (43_compression.md R183, R193). -/
def rounds (h : Vector Word 8) (w : Vector Word 64) : Vector Word 8 := roundsUpTo 64 h w

/-- The final additions `h[j] + v[j]` (43_compression.md R186). -/
def addWords (h v : Vector Word 8) : Vector Word 8 :=
  #v[h[0] + v[0], h[1] + v[1], h[2] + v[2], h[3] + v[3], h[4] + v[4], h[5] + v[5], h[6] + v[6], h[7] + v[7]]

/-- `compress(H, c)`, the pure form of `compressChunk` (43_compression.md R191). -/
def compress (h : Vector Word 8) (c : Vector Word 16) : Vector Word 8 := addWords h (rounds h (schedule c))

end Sys2Proof.Machine
end

