-- ==== Sys2Proof/Machine/Ops.lean ====
section
/-! DEFINITION. The shared operations: the chunk buffer's two primitives, `compressChunk`, `pushBit` and its
repetitions, engine creation, taking a fault and leaving the fault state, padding. -/

namespace Sys2Proof.Machine

/-- `pos = total mod 512` (10_state.md R27), the bit address the next pushed bit goes to. -/
def State.pos (s : State) : Fin 512 := ⟨s.total.toNat % 512, Nat.mod_lt _ (by decide)⟩

/-- The word that holds bit address `p`: `p div 32` (20_memory.md R51). -/
def wordIndex (p : Fin 512) : Fin 16 := ⟨p.val / 32, by omega⟩

/-- The place of bit address `p` in its word: `31 - (p mod 32)` (20_memory.md R51). -/
def bitIndex (p : Fin 512) : Nat := 31 - p.val % 32

/-- `x` with bit `k` overwritten by `b` (20_memory.md R52). The addition of R52 cannot carry, because bit `k` of its
left term is 0, so it is written as an or. -/
def writeWordBit (x : Word) (k : Nat) (b : Bool) : Word :=
  (x &&& ~~~(1#32 <<< k)) ||| (if b then 1#32 <<< k else 0)

/-- `ChunkWriteBit(p, b)` (20_memory.md R52): overwrites one bit, a 0 as firmly as a 1. -/
def chunkWriteBit (buf : Vector Word 16) (p : Fin 512) (b : Bool) : Vector Word 16 :=
  buf.set (wordIndex p).val (writeWordBit buf[(wordIndex p).val] (bitIndex p) b)

/-- The bit at bit address `p` (20_memory.md R51). Not an operation of the core, which reads words: the reading in
which statements speak of one bit of the buffer. -/
def chunkReadBit (buf : Vector Word 16) (p : Fin 512) : Bool :=
  buf[(wordIndex p).val].getLsbD (bitIndex p)

/-- `ChunkReadWord(j)` (20_memory.md R53). -/
def chunkReadWord (buf : Vector Word 16) (j : Fin 16) : Word := buf[j.val]

/-- The chunk buffer with every word 0 (10_state.md R23). -/
def zeroChunk : Vector Word 16 := Vector.replicate 16 0

/-- The digest register with every word 0 (10_state.md R40). -/
def zeroDigest : Vector Word 8 := Vector.replicate 8 0

/-- `compressChunk()` (43_compression.md R180): `h` becomes `compress(h, chunk)` (R191), then the chunk is cleared
(R187). `w` and `v` are locals of `compress` (10_state.md R33, R34). -/
def compressChunk (s : State) : State :=
  { s with h := compress s.h s.chunk, chunk := zeroChunk }

/-- `pushBit(b)` (41_ingestion.md R120): write at `pos`, advance `total`, and at a multiple of 512 compress, with
`phase` compressing for the duration. -/
def pushBit (b : Bool) (s : State) : State :=
  let s' : State := { s with chunk := chunkWriteBit s.chunk s.pos b, total := s.total + 1 }
  if s'.pos.val = 0 then
    { compressChunk { s' with phase := .compressing } with phase := .collecting }
  else s'

/-- `pushSeq(s)` (41_ingestion.md R121): one `pushBit` per bit, in order. -/
def pushSeq (bits : List Bool) (s : State) : State := bits.foldl (fun s b => pushBit b s) s

/-- `repeat n times: pushBit(b)` (41_ingestion.md R124). -/
def pushRepeat (b : Bool) : Nat → State → State
  | 0, s => s
  | n + 1, s => pushRepeat b n (pushBit b s)

/-- Bits `lo + n - 1` down to `lo` of a word, most significant first: the order every push takes bits in
(30_encoding.md R75). -/
def bitsDown (x : Word) (lo : Nat) : Nat → List Bool
  | 0 => []
  | n + 1 => x.getLsbD (lo + n) :: bitsDown x lo n

/-- Every architectural register at its reset value: the effect of `Reset` (70_reset_and_hazards.md R240) and of
`INIT` (42_finalization.md R160). What the outside presents is not engine state and stays, and so do BitEngine's
inputs and output, the unit having no state to reset. -/
def initialise (s : State) : State :=
  { s with h := IV, chunk := zeroChunk, total := 0, D := zeroDigest, digestValid := false, err := .noFault,
           phase := .collecting }

/-- `raise Fault(code)` (60_exceptions.md R214, 00_scope.md R15): `err` takes the code and nothing else changes.
There is no handler, no saved context and no way to resume; `initialise` is the only way out (R216). -/
def takeFault (code : Err) (s : State) : State := { s with err := code }

/-- Step 2 of the decoding order (30_encoding.md R74): while `err` is not 0 a command is ignored and no state changes
(60_exceptions.md R215); otherwise it acts. -/
def whenOperational (act : State → State) (s : State) : State :=
  if s.err = .noFault then act s else s

/-- A word that is no command, accepted by the engine: `ERR_ILLEGAL`, or ignored in the fault state
(30_encoding.md R74 steps 2 to 4, 60_exceptions.md R211). -/
def acceptIllegal (s : State) : State := whenOperational (takeFault .errIllegal) s

/-- Steps 2 and 5 to 7 of the decoding order (30_encoding.md R74) for an ingestion command that pushes `n` bits:
ignored in the fault state, then the contract range, then the length limit (41_ingestion.md R122), then the push.
The checks come before any change of state. -/
def ingest (inRange : Bool) (n : Nat) (push : State → State) : State → State :=
  whenOperational fun s =>
    if inRange = false then takeFault .errRange s
    else if Config.maxMsgBits ≤ s.total.toNat + n then takeFault .errLength s
    else push s

/-- `K = (447 - L) mod 512`, the number of padding zeros (42_finalization.md R151): 447 and 959 agree modulo 512, and
the subtraction of `L mod 512` from 959 never goes below 0. -/
def padZeros (L : Nat) : Nat := (959 - L % 512) % 512

/-- Steps 1 to 5 of `HASH` (42_finalization.md R150): a 1, `K` zeros, then `L` as a 64-bit big-endian number, high word
first (R152). `L` is latched before the first of these pushes, and none of them is checked (R153). -/
def appendPadding (s : State) : State :=
  let L := s.total
  let s1 := pushBit true s
  let s2 := pushRepeat false (padZeros L.toNat) s1
  let s3 := pushSeq (bitsDown (L.extractLsb' 32 32) 0 32) s2
  pushSeq (bitsDown (L.extractLsb' 0 32) 0 32) s3

/-- Step 6 of `HASH`: snapshot `h` into the digest register (42_finalization.md R150, 10_state.md R24). -/
def snapshotDigest (s : State) : State := { s with D := s.h, digestValid := true }

/-- Step 7 of `HASH` with `p = 0`: back to the initial hash state (42_finalization.md R150, R155). -/
def resetHash (s : State) : State := { s with h := IV, total := 0, chunk := zeroChunk }

/-- Step 7 of `HASH` with `p = 1`: `h`, `chunk` and `total` as they were saved in step 0
(42_finalization.md R150, R156). The save area is the old state itself (10_state.md R35). -/
def restoreHash (saved s : State) : State := { s with h := saved.h, chunk := saved.chunk, total := saved.total }

end Sys2Proof.Machine
end

