-- ==== Sys2Proof/Machine/Finalization.lean ====
section
/-! DEFINITION. Meanings of `HASH` and `INIT` (42_finalization.md). -/

namespace Sys2Proof.Machine

/-- The effect of an accepted `HASH` (42_finalization.md R150): padding, snapshot, then reset (`p = 0`) or restore
(`p = 1`). -/
def hashEffect (preserve : Bool) (s : State) : State :=
  let done := snapshotDigest (appendPadding s)
  if preserve then restoreHash s done else resetHash done

/-- `HASH` (`preserve = false`) and `HASH.P` (`preserve = true`) (42_finalization.md R150), ignored in the fault state
(60_exceptions.md R215). It raises no fault of its own: the must-be-zero fields are checked by decoding. -/
def execHash (preserve : Bool) (s : State) : Host.Outcome State Fault Refusal :=
  .next (whenOperational (hashEffect preserve) s)

/-- `INIT` (42_finalization.md R160): the effect of `Reset`, also when `err` is not 0 (30_encoding.md R74 step 1). -/
def execInit (s : State) : Host.Outcome State Fault Refusal := .next (initialise s)

end Sys2Proof.Machine
end

