-- ==== Sys2Proof/Machine/Operands.lean ====
section
/-! DEFINITION. Operands of the ingestion commands: contract ranges and pushed bits (30_encoding.md R73, R75). -/

namespace Sys2Proof.Machine

/-- The contract range 0..1 of a bit operand, in a field of any width (30_encoding.md R73). -/
def bitInRange {w : Nat} (x : BitVec w) : Bool := x.toNat ≤ 1

/-- The contract range 0..255 of a byte operand (30_encoding.md R73). -/
def byteInRange (x : BitVec 32) : Bool := x.toNat ≤ 255

/-- The contract range 1..32 of a width operand (30_encoding.md R73). -/
def widthInRange (x : BitVec 12) : Bool := Config.valWidthMin ≤ x.toNat && x.toNat ≤ Config.valWidthMax

/-- Low-end operand: `value[W-1]` down to `value[0]` (30_encoding.md R75); the bits above the width are ignored. -/
def lowBits (width : Nat) (value : Word) : List Bool := bitsDown value 0 width

/-- High-end operand: `value[31]` down to `value[32-W]` (30_encoding.md R75); the bits below are ignored. -/
def highBits (width : Nat) (value : Word) : List Bool := bitsDown value (32 - width) width

/-- The bit sequence an ingestion command pushes, first bit first (30_encoding.md R75); none for a command or control
word that pushes no message bits. -/
def pushedBits : Instr → Option (List Bool)
  | .init => none
  | .pushBit data => some [data.getLsbD 0]
  | .pushBits bit count => some (List.replicate count.toNat (bit.getLsbD 0))
  | .pushValLo width value => some (lowBits width.toNat value)
  | .pushValHi width value => some (highBits width.toNat value)
  | .pushByte value => some (lowBits 8 value)
  | .pushWord value => some (lowBits 32 value)
  | .hash _ => none
  | .rotr _ => none
  | .shr _ => none

end Sys2Proof.Machine
end

