-- ==== Sys2Proof/Machine/Ingestion.lean ====
section
/-! DEFINITION. Meanings of the six ingestion commands (41_ingestion.md). Each is its contract range, its bit count
and its pushes over the shared operation `ingest`; none has a flag effect, and none touches `D` or `digest_valid`
(R133). -/

namespace Sys2Proof.Machine

/-- `PUSH_BIT b` (41_ingestion.md R123): `pushBit(data[0])`. -/
def execPushBit (data : BitVec 32) (s : State) : Host.Outcome State Fault Refusal :=
  .next (ingest (bitInRange data) 1 (pushBit (data.getLsbD 0)) s)

/-- `PUSH_BITS b, count` (41_ingestion.md R124): `count` times `pushBit(aux[0])`; `count = 0` changes nothing. -/
def execPushBits (bit : BitVec 12) (count : BitVec 32) (s : State) : Host.Outcome State Fault Refusal :=
  .next (ingest (bitInRange bit) count.toNat (pushRepeat (bit.getLsbD 0) count.toNat) s)

/-- `PUSH_VAL_LO value, width` (41_ingestion.md R125): `data[W-1]` down to `data[0]`. -/
def execPushValLo (width : BitVec 12) (value : BitVec 32) (s : State) : Host.Outcome State Fault Refusal :=
  .next (ingest (widthInRange width) width.toNat (pushSeq (lowBits width.toNat value)) s)

/-- `PUSH_VAL_HI value, width` (41_ingestion.md R126): `data[31]` down to `data[32-W]`. Which bits and in what order
is the spec's own decision (92_eei_decisions.md D11). -/
def execPushValHi (width : BitVec 12) (value : BitVec 32) (s : State) : Host.Outcome State Fault Refusal :=
  .next (ingest (widthInRange width) width.toNat (pushSeq (highBits width.toNat value)) s)

/-- `PUSH_BYTE value` (41_ingestion.md R127): `data[7]` down to `data[0]`. -/
def execPushByte (value : BitVec 32) (s : State) : Host.Outcome State Fault Refusal :=
  .next (ingest (byteInRange value) 8 (pushSeq (lowBits 8 value)) s)

/-- `PUSH_WORD value` (41_ingestion.md R128): `data[31]` down to `data[0]`; no range fault is possible. -/
def execPushWord (value : BitVec 32) (s : State) : Host.Outcome State Fault Refusal :=
  .next (ingest true 32 (pushSeq (lowBits 32 value)) s)

end Sys2Proof.Machine
end

