-- ==== Sys2Proof/Machine/Dispatch.lean ====
section
/-! DEFINITION. `exec`: one arm per instruction. -/

namespace Sys2Proof.Machine

/-- The effect of one instruction (step 7 of 30_encoding.md R74, with the checks of steps 2, 5 and 6). -/
def exec (i : Instr) (s : State) : Host.Outcome State Fault Refusal :=
  match i with
  | .init => Sys2Proof.Machine.execInit s
  | .pushBit data => Sys2Proof.Machine.execPushBit data s
  | .pushBits bit count => Sys2Proof.Machine.execPushBits bit count s
  | .pushValLo width value => Sys2Proof.Machine.execPushValLo width value s
  | .pushValHi width value => Sys2Proof.Machine.execPushValHi width value s
  | .pushByte value => Sys2Proof.Machine.execPushByte value s
  | .pushWord value => Sys2Proof.Machine.execPushWord value s
  | .hash preserve => Sys2Proof.Machine.execHash preserve s
  | .rotr n => Sys2Proof.Machine.execRotr n s
  | .shr n => Sys2Proof.Machine.execShr n s

end Sys2Proof.Machine
end

