-- ==== Sys2Proof/Machine/Flags.lean ====
section
/-! DEFINITION. Status. The core has no condition codes (10_state.md R29); its status values are `err`,
`digest_valid`, `total` and `cmd_ready` (R32), shown on the output ports with the digest (R37, R38). -/

namespace Sys2Proof.Machine

/-- The 4-bit fault code (60_exceptions.md R210). -/
def Err.code : Err → BitVec 4
  | .noFault => 0
  | .errIllegal => 1
  | .errRange => 2
  | .errLength => 3

/-- The status condition `err != 0` (10_state.md R29), the fault state (60_exceptions.md R215). -/
def State.faulted (s : State) : Bool := s.err != .noFault

/-- Output `cmd_ready`: low exactly while a command is executing (10_state.md R28, R37). -/
def State.cmdReady (s : State) : Bool := s.phase == .collecting

/-- The command the outside presents now, if any: `cmd_valid` and `cmd` (10_state.md R37). -/
def State.presented (s : State) : Option CmdWord :=
  match s.host with
  | .command c :: _ => some c
  | _ => none

/-- The word `{D[0], ..., D[7]}`, `D[0]` in bits 255..224 (10_state.md R38). -/
def digestPort (D : Vector Word 8) : BitVec 256 :=
  D[0] ++ D[1] ++ D[2] ++ D[3] ++ D[4] ++ D[5] ++ D[6] ++ D[7]

/-- The status outputs (10_state.md R38). -/
structure StatusOutputs where
  err : BitVec 4
  total : BitVec 64
  digestValid : Bool
  digest : BitVec 256
  deriving DecidableEq, Repr

/-- The status outputs, valid whenever `cmd_ready` is 1 (10_state.md R38). While it is 0 they are unspecified
(93_implementation_defined.md U8) and the model shows none. -/
def State.status (s : State) : Option StatusOutputs :=
  if s.cmdReady then
    some { err := s.err.code, total := s.total, digestValid := s.digestValid, digest := digestPort s.D }
  else none

/-- Byte `n` of the encoded digest: bits `31-8m .. 24-8m` of `D[j]`, `j = n div 4`, `m = n mod 4`
(20_memory.md R58). -/
def digestByte (D : Vector Word 8) (n : Fin 32) : BitVec 8 :=
  D[n.val / 4].extractLsb' (24 - 8 * (n.val % 4)) 8

/-- A hexadecimal digit of `0123456789abcdef` (20_memory.md R59). -/
def hexDigit (x : BitVec 4) : Char :=
  ['0', '1', '2', '3', '4', '5', '6', '7', '8', '9', 'a', 'b', 'c', 'd', 'e', 'f'].getD x.toNat '0'

/-- Character `i` of the 64-character hexadecimal digest: two per byte, high nibble first (20_memory.md R59). The core
does not produce it; the spec defines it for comparison with published digests. -/
def digestHexChar (D : Vector Word 8) (i : Fin 64) : Char :=
  hexDigit ((digestByte D ⟨i.val / 2, by omega⟩).extractLsb' (4 * (1 - i.val % 2)) 4)

end Sys2Proof.Machine
end

