-- ==== Sys2Proof/Machine/Accept.lean ====
section
/-! DEFINITION. What the engine does with one event of its ports: decoding an accepted word and running it, a reset,
an evaluation of BitEngine alone. -/

namespace Sys2Proof.Machine

/-- An accepted command word (30_encoding.md R74): decoded, then executed, or `ERR_ILLEGAL`. -/
def acceptCommand (c : CmdWord) (s : State) : Host.Outcome State Fault Refusal :=
  match decode (.cmd c) with
  | .ok i => exec i s
  | .error _ => .next (acceptIllegal s)

/-- A `BE` control word with data input `x` presented to BitEngine alone (30_encoding.md R79; log entry 2). -/
def evaluateBitEngine (ctl : BeWord) (x : Word) (s : State) : Host.Outcome State Fault Refusal :=
  exec (decodeBitEngine ctl) { s with beX := x }

/-- One event of the ports, already taken off the list. A word presented while `cmd_ready` is 0 is not accepted
(10_state.md R37): it has no effect until the engine is ready (70_reset_and_hazards.md R245), so it stays presented. -/
def takeEvent (e : PortEvent) (s : State) : Host.Outcome State Fault Refusal :=
  match e with
  | .reset => .next (initialise s)
  | .command c => if s.cmdReady then acceptCommand c s else .next { s with host := e :: s.host }
  | .bitEngine ctl x => evaluateBitEngine ctl x s

end Sys2Proof.Machine
end

