-- ==== Sys2Proof/Machine/Step.lean ====
section
/-! DEFINITION. One step of the machine: the next event of its ports. -/

namespace Sys2Proof.Machine

/-- One step. With nothing presented (`cmd_valid` 0) the core is idle and holds all state (60_exceptions.md R224).
There is no program counter: control is the host's order of commands (10_state.md R26, 20_memory.md R61). -/
def step (s : State) : Host.Outcome State Fault Refusal :=
  match s.host with
  | [] => .next s
  | e :: rest => takeEvent e { s with host := rest }

/-- `s` with a row's word presented as the very next event: a command word on the command port, which is made ready
for it, or a control word at BitEngine's inputs, whose data input stays `s.beX`. Log entry 1. -/
def State.withFetchWord (s : State) (nbits w : Nat) : State :=
  if nbits ≤ 8 then { s with host := .bitEngine (BitVec.ofNat 6 w) s.beX :: s.host }
  else { s with host := .command (BitVec.ofNat 48 w) :: s.host, phase := .collecting }

end Sys2Proof.Machine
end

