-- ==== Sys2Proof/Machine/Assembler.lean ====
section
/-! DEFINITION. The assembler lines of 30_encoding.md R80. -/

namespace Sys2Proof.Machine

/-- One line of the spec's command syntax (30_encoding.md R80). Operands are not range-checked, so that a test can
spell a contract violation; each is as wide as the field it goes to. -/
inductive AsmLine where
  | init
  | pushBit (b : BitVec 32)
  | pushBits (b : BitVec 12) (count : BitVec 32)
  | pushValLo (value : BitVec 32) (width : BitVec 12)
  | pushValHi (value : BitVec 32) (width : BitVec 12)
  | pushByte (value : BitVec 32)
  | pushWord (value : BitVec 32)
  /-- `HASH`, `p = 0`. -/
  | hash
  /-- `HASH.P`, `p = 1`. -/
  | hashP
  /-- `.cmd`, the literal word. -/
  | cmd (w : CmdWord)
  deriving DecidableEq, Repr

/-- The word of a line (30_encoding.md R80). -/
def assemble : AsmLine → CmdWord
  | .init => 0x100000000000
  | .pushBit b => commandWord 0x2 0 b
  | .pushBits b count => commandWord 0x3 b count
  | .pushValLo value width => commandWord 0x4 width value
  | .pushValHi value width => commandWord 0x5 width value
  | .pushByte value => commandWord 0x6 0 value
  | .pushWord value => commandWord 0x7 0 value
  | .hash => 0x800000000000
  | .hashP => 0x800100000000
  | .cmd w => w

end Sys2Proof.Machine
end

