-- ==== Sys2Proof/Machine/System.lean ====
section
/-! DEFINITION. Several engines side by side (60_exceptions.md R223): the product of independent copies. -/

namespace Sys2Proof.Machine

/-- A system of engines, each with its own state and its own ports; nothing is shared but the read-only tables
(60_exceptions.md R223). -/
abbrev System := List State

/-- One step of the state of an engine, which stays where it is if the engine stops. -/
def stepped (s : State) : State :=
  match step s with
  | .next t => t
  | .fault _ => s
  | .refused _ => s

/-- One step of engine `k`; no step where there is no such engine. -/
def System.stepEngine (k : Nat) (sys : System) : System := sys.modify k stepped

end Sys2Proof.Machine
end

