-- ==== Sys2Proof/Machine/Bursts.lean ====
section
/-! DEFINITION. Bursts of commands (00_scope.md R17), the pseudo-instructions (30_encoding.md R81), and a sequence of
words presented at the port. -/

namespace Sys2Proof.Machine

/-- The commands of a burst one after another (20_memory.md R61), stopping where one stops. -/
def runBurst : List Instr → State → Host.Outcome State Fault Refusal
  | [], s => .next s
  | i :: is, s =>
    match exec i s with
    | .next t => runBurst is t
    | .fault r => .fault r
    | .refused r => .refused r

/-- The words `cs`, in order, as all the host will present. -/
def State.presenting (s : State) (cs : List CmdWord) : State := { s with host := cs.map .command }

/-- `PUSH_BITSEQ b0, ..., bn-1` (30_encoding.md R81): one `PUSH_BIT` per operand. -/
def pushBitseq (bs : List (BitVec 32)) : List Instr := bs.map .pushBit

/-- `PUSH_BYTES v0, ..., vn-1` (30_encoding.md R81). -/
def pushBytes (vs : List (BitVec 32)) : List Instr := vs.map .pushByte

/-- `PUSH_WORDS v0, ..., vn-1` (30_encoding.md R81). -/
def pushWords (vs : List (BitVec 32)) : List Instr := vs.map .pushWord

/-- `PUSH_ASCII "text"` (30_encoding.md R81): `PUSH_BYTE` of each character code in order. -/
def pushAscii (text : List Char) : List Instr := text.map fun c => .pushByte (BitVec.ofNat 32 c.toNat)

/-- `HASHOF_BYTES v0, ..., vn-1` (30_encoding.md R81). -/
def hashofBytes (vs : List (BitVec 32)) : List Instr := .init :: (pushBytes vs ++ [.hash false])

/-- `HASHOF_BITS b0, ..., bn-1` (30_encoding.md R81). -/
def hashofBits (bs : List (BitVec 32)) : List Instr := .init :: (pushBitseq bs ++ [.hash false])

end Sys2Proof.Machine
end

