-- ==== Sys2Proof/Safety.lean ====
section
/-! DEFINITION. The terms claims are made in: the invariant of the state between commands, and the message an engine
has taken, with its SHA-256 digest written as pad, cut, compress (42_finalization.md R158) and not as pushes. -/

namespace Sys2Proof.Machine

/-- What holds between commands in every state a run reaches. -/
structure State.Inv (s : State) : Prop where
  /-- `phase` is `COLLECTING` at every command boundary (10_state.md R28). -/
  collecting : s.phase = .collecting
  /-- `total < MAX_MSG_BITS` at every command boundary (10_state.md R31, 41_ingestion.md R122). -/
  short : s.total.toNat < Config.maxMsgBits
  /-- Every chunk bit at a position `>= pos` is 0 (10_state.md R31). -/
  tailZero : ∀ p : Fin 512, s.pos ≤ p → chunkReadBit s.chunk p = false
  /-- `h = IV` while no compression has happened on the current message (10_state.md R21, R31). -/
  freshHash : s.total.toNat < Config.chunkBits → s.h = IV
  /-- While `digest_valid` is 0 the digest reads as zero (10_state.md R38). -/
  noDigest : s.digestValid = false → s.D = zeroDigest

/-- A bit string as a number, first bit most significant. -/
def bitsValue (bits : List Bool) : Nat := bits.foldl (fun a b => 2 * a + b.toNat) 0

/-- The first 512 bits of a bit string as sixteen words (20_memory.md R51), 0 beyond the end of the string. -/
def chunkOf (bits : List Bool) : Vector Word 16 :=
  Vector.ofFn fun j : Fin 16 =>
    BitVec.ofNat 32 (bitsValue ((List.range 32).map fun k => bits.getD (32 * j.val + k) false))

/-- The chunk buffer read as one 512-bit number `{chunk[0], ..., chunk[15]}` (20_memory.md R51). -/
def chunkNumber (c : Vector Word 16) : Nat := c.toList.foldl (fun a w => a * 2 ^ 32 + w.toNat) 0

/-- `H_t` of 42_finalization.md R158, from a start value `h0`: the running hash after the first `t` chunks of a bit
string. -/
def hashChunks (h0 : Vector Word 8) (m : List Bool) : Nat → Vector Word 8
  | 0 => h0
  | t + 1 => compress (hashChunks h0 m t) (chunkOf (m.drop (Config.chunkBits * t)))

/-- The bits below `pos` in the chunk buffer, earliest first (10_state.md R31). -/
def State.bufferedBits (s : State) : List Bool :=
  List.ofFn fun i : Fin s.pos.val => chunkReadBit s.chunk ⟨i.val, i.isLt.trans s.pos.isLt⟩

/-- `L` as a 64-bit big-endian number, most significant bit first (42_finalization.md R152). -/
def lengthBits (L : Nat) : List Bool := (List.range 64).map fun i => L.testBit (63 - i)

/-- `m'` of 42_finalization.md R158: the message, a 1, `(447 - L) mod 512` zeros (R151), the length. -/
def padMessage (m : List Bool) : List Bool :=
  m ++ true :: (List.replicate ((447 - (m.length : Int)) % 512).toNat false ++ lengthBits m.length)

/-- `H_N`: the digest of a message (42_finalization.md R158). -/
def sha256 (m : List Bool) : Vector Word 8 :=
  hashChunks IV (padMessage m) ((padMessage m).length / Config.chunkBits)

/-- The engine has taken exactly the message bits `m` since the last reset, `INIT` or destructive `HASH`
(42_finalization.md R158): `total` counts them, `h` is the hash of the full chunks, the chunk buffer holds the rest. -/
structure State.Carries (s : State) (m : List Bool) : Prop where
  supported : m.length < Config.maxMsgBits
  counted : s.total.toNat = m.length
  hashed : s.h = hashChunks IV m (m.length / Config.chunkBits)
  buffered : s.chunk = chunkOf (m.drop (Config.chunkBits * (m.length / Config.chunkBits)))

/-- Every architectural register at the value 10_state.md R40 gives it. -/
structure State.AtReset (s : State) : Prop where
  hash : s.h = IV
  count : s.total = 0
  buffer : ∀ j : Fin 16, chunkReadWord s.chunk j = 0
  digest : ∀ j : Fin 8, s.D[j.val] = 0
  invalid : s.digestValid = false
  clear : s.err = .noFault
  collecting : s.phase = .collecting

/-- A run is safe at a state when the core is operational (60_exceptions.md R221): every claim about a digest takes
`err = 0` as a premise (R215). -/
def State.operational (s : State) : Prop := s.err = .noFault

/-- A word whose opcode is `0x0` or `0x9..0xF` (30_encoding.md R72). -/
def reservedOpcode (w : CmdWord) : Prop := opField w = 0 ∨ 9 ≤ (opField w).toNat

/-- A word with a defined opcode and a must-be-zero field that is not zero (30_encoding.md R73, R76). -/
def nonZeroMbz (w : CmdWord) : Prop :=
  (opField w = 0x1 ∧ (auxField w ≠ 0 ∨ dataField w ≠ 0)) ∨
  ((opField w = 0x2 ∨ opField w = 0x6 ∨ opField w = 0x7) ∧ auxField w ≠ 0) ∨
  (opField w = 0x8 ∧ (1 < (auxField w).toNat ∨ dataField w ≠ 0))

/-- The instructions that append message bits (00_scope.md R19, Ingestion). -/
def isIngestion (i : Instr) : Prop := (pushedBits i).isSome

end Sys2Proof.Machine
end

