-- ==== Sys2Proof/WellFormed.lean ====
section
/-! DEFINITION. Canonical operands: the contract ranges of 30_encoding.md R73. -/

namespace Sys2Proof

/-- The operands lie in the contract ranges of 30_encoding.md R73 (RSHA's "already-canonicalized" operands,
70_reset_and_hazards.md R247). An instruction outside them still has an encoding and still decodes: executing it
raises `ERR_RANGE` (60_exceptions.md R212). -/
def Instr.wellFormed : Instr → Bool
  | .init => true
  | .pushBit data => data.toNat ≤ 1
  | .pushBits bit _ => bit.toNat ≤ 1
  | .pushValLo width _ => Config.valWidthMin ≤ width.toNat && width.toNat ≤ Config.valWidthMax
  | .pushValHi width _ => Config.valWidthMin ≤ width.toNat && width.toNat ≤ Config.valWidthMax
  | .pushByte value => value.toNat ≤ 255
  | .pushWord _ => true
  | .hash _ => true
  | .rotr _ => true
  | .shr _ => true

end Sys2Proof
end

