-- ==== Sys2Proof/Certificates/Slice0/Obligations.lean ====
section
/-! DEFINITION. The statements for the provers. Each docstring names the rule of spec/ the statement formalises. -/

open Sys2Proof Sys2Proof.Machine

/-! ### Reset, initialisation, the ports -/

/-- 10_state.md R40: the state after `Reset`, and identically after `INIT`, which completes from every state. -/
def Obligations.ResetAndInitLeaveTheResetState : Prop :=
  (State.reset.AtReset ∧ State.reset.pos = 0 ∧ State.reset.cmdReady = true) ∧
  (∀ s : State, ∃ t, exec .init s = .next t ∧ t.AtReset ∧ t.pos = 0 ∧ t.cmdReady = true)

/-- 42_finalization.md R160: `INIT` completes from every state, also in the fault state; its word with an operand bit
set is not an `INIT`; `INIT` then `HASH` gives the digest of the empty message. -/
def Obligations.InitCommand : Prop :=
  ∀ s : State,
    (∃ t, exec .init s = .next t ∧ acceptCommand 0x100000000000 s = .next t ∧ t.AtReset) ∧
    (∀ w : CmdWord, opField w = 0x1 → auxField w ≠ 0 ∨ dataField w ≠ 0 →
      (s.err = .noFault → acceptCommand w s = .next { s with err := .errIllegal }) ∧
      (s.err ≠ .noFault → acceptCommand w s = .next s)) ∧
    (∃ u, runBurst [.init, .hash false] s = .next u ∧ u.D = sha256 [] ∧ u.digestValid = true)

/-- 10_state.md R36 and R37, 70_reset_and_hazards.md R245: a presented word is accepted when `cmd_ready` is 1 and has
no effect while it is 0; the `Reset` event gives the reset state from every state; with nothing presented the core
holds all state (60_exceptions.md R224). The list `host` is the model's way to hold the inputs (log entry 1). -/
def Obligations.PortHandshake : Prop :=
  (∀ (s : State) (w : CmdWord) (rest : List PortEvent), s.host = .command w :: rest → s.cmdReady = true →
    step s = acceptCommand w { s with host := rest }) ∧
  (∀ (s : State) (w : CmdWord) (rest : List PortEvent), s.host = .command w :: rest → s.cmdReady = false →
    step s = .next s) ∧
  (∀ (s : State) (rest : List PortEvent), s.host = .reset :: rest →
    ∃ t, step s = .next t ∧ t.AtReset ∧ t.pos = 0 ∧ t.cmdReady = true ∧ t.host = rest) ∧
  (∀ s : State, s.host = [] → step s = .next s)

/-- A step runs the decoded instruction: a presented command word that decodes to `i`, on a ready core, and a control
word at BitEngine's inputs with data input `x`. What a step adds around `exec` is taking the event off the list (log
entry 1) and, for BitEngine, setting its data input (log entry 2). -/
def Obligations.StepRunsTheDecodedInstruction : Prop :=
  (∀ (s : State) (w : CmdWord) (i : Instr) (rest : List PortEvent),
    s.host = .command w :: rest → s.phase = .collecting → decode (.cmd w) = .ok i →
    step s = exec i { s with host := rest }) ∧
  (∀ (s : State) (ctl : BeWord) (x : Word) (i : Instr) (rest : List PortEvent),
    s.host = .bitEngine ctl x :: rest → decode (.be ctl) = .ok i →
    step s = exec i { s with host := rest, beX := x })

/-- 10_state.md R38: the status outputs while `cmd_ready` is 1, `err` by the 4-bit codes of 60_exceptions.md R210, of
which 4 to 15 never show. Nothing is said of the outputs while `cmd_ready` is 0, where the spec leaves them unspecified
(log entry 7). -/
def Obligations.StatusOutputsShowTheRegisters : Prop :=
  ∀ s : State, s.cmdReady = true → ∃ o, s.status = some o ∧ o.err = s.err.code ∧
    (s.err = .noFault → o.err = 0) ∧ (s.err = .errIllegal → o.err = 1) ∧ (s.err = .errRange → o.err = 2) ∧
    (s.err = .errLength → o.err = 3) ∧ o.err.toNat ≤ 3 ∧
    o.total = s.total ∧ o.digestValid = s.digestValid ∧
    (∀ (j : Fin 8) (k : Fin 32), o.digest.getLsbD (32 * (7 - j.val) + k.val) = s.D[j.val].getLsbD k.val) ∧
    (s.AtReset → o.digestValid = false ∧ o.digest = 0)

/-- 20_memory.md R58: byte `n` of the encoded digest, in the register and on the port. -/
def Obligations.DigestBytesAreBigEndian : Prop :=
  ∀ (D : Vector Word 8) (n : Fin 32) (k : Fin 8),
    (digestByte D n).getLsbD k.val = D[n.val / 4].getLsbD (24 - 8 * (n.val % 4) + k.val) ∧
    (digestPort D).getLsbD (248 - 8 * n.val + k.val) = (digestByte D n).getLsbD k.val

/-! ### Encoding and decoding -/

/-- Decoding the word of an instruction gives the instruction back, every operand field at every value. -/
def Obligations.DecodeOfEncode : Prop := ∀ i : Instr, decode (encode i) = .ok i

/-- A word that decodes is the word of the instruction it decodes to: no two words stand for one instruction. -/
def Obligations.EncodeOfDecode : Prop := ∀ (x : Code) (i : Instr), decode x = .ok i → encode i = x

/-- 30_encoding.md R76: the illegal words are exactly those with a reserved opcode or a non-zero must-be-zero field,
and they raise `ERR_ILLEGAL` when accepted with `err = 0`. -/
def Obligations.IllegalWordsAreExactlyThese : Prop :=
  ∀ w : CmdWord,
    (decodeCommand w = .error .reservedOpcode ↔ reservedOpcode w) ∧
    (decodeCommand w = .error .mustBeZero ↔ nonZeroMbz w) ∧
    (reservedOpcode w ∨ nonZeroMbz w → ∀ s : State, s.err = .noFault →
      acceptCommand w s = .next { s with err := .errIllegal })

/-- 30_encoding.md R79: every control word of BitEngine is `ROTR` or `SHR` by its bit 5, with its low five bits as
amount; no command word is one. -/
def Obligations.BitEngineControlWords : Prop :=
  (∀ n : Fin 32, decode (.be (BitVec.ofNat 6 n.val)) = .ok (.rotr n) ∧
    decode (.be (BitVec.ofNat 6 (32 + n.val))) = .ok (.shr n)) ∧
  (∀ (w : CmdWord) (n : Fin 32), decodeCommand w ≠ .ok (.rotr n) ∧ decodeCommand w ≠ .ok (.shr n))

/-- Words written out from 30_encoding.md R72, R73 and R79, and the instructions they stand for. -/
def Obligations.SampleWordsDecode : Prop :=
  decode (.cmd 0x100000000000) = .ok .init ∧
  decode (.cmd 0x200000000001) = .ok (.pushBit 1) ∧
  decode (.cmd 0x300100000005) = .ok (.pushBits 1 5) ∧
  decode (.cmd 0x4003fffffff5) = .ok (.pushValLo 3 0xfffffff5) ∧
  decode (.cmd 0x5003a0000000) = .ok (.pushValHi 3 0xa0000000) ∧
  decode (.cmd 0x600000000061) = .ok (.pushByte 0x61) ∧
  decode (.cmd 0x700061626380) = .ok (.pushWord 0x61626380) ∧
  decode (.cmd 0x800100000000) = .ok (.hash true) ∧
  decode (.be 0x0d) = .ok (.rotr 13) ∧
  decode (.be 0x2a) = .ok (.shr 10)

/-- 30_encoding.md R80: the word of each line of the spec's command syntax means that command. -/
def Obligations.AssembledLinesDecode : Prop :=
  decodeCommand (assemble .init) = .ok .init ∧
  (∀ b, decodeCommand (assemble (.pushBit b)) = .ok (.pushBit b)) ∧
  (∀ b count, decodeCommand (assemble (.pushBits b count)) = .ok (.pushBits b count)) ∧
  (∀ value width, decodeCommand (assemble (.pushValLo value width)) = .ok (.pushValLo width value)) ∧
  (∀ value width, decodeCommand (assemble (.pushValHi value width)) = .ok (.pushValHi width value)) ∧
  (∀ value, decodeCommand (assemble (.pushByte value)) = .ok (.pushByte value)) ∧
  (∀ value, decodeCommand (assemble (.pushWord value)) = .ok (.pushWord value)) ∧
  decodeCommand (assemble .hash) = .ok (.hash false) ∧
  decodeCommand (assemble .hashP) = .ok (.hash true) ∧
  (∀ w, assemble (.cmd w) = w)

/-- 30_encoding.md R74: the decoding order, whole, for every word and every state. -/
def Obligations.DecodingOrder : Prop :=
  ∀ (w : CmdWord) (s : State),
    (w = 0x100000000000 → acceptCommand w s = exec .init s) ∧
    (w ≠ 0x100000000000 → s.err ≠ .noFault → acceptCommand w s = .next s) ∧
    (w ≠ 0x100000000000 → s.err = .noFault →
      (reservedOpcode w ∨ nonZeroMbz w → acceptCommand w s = .next { s with err := .errIllegal }) ∧
      (∀ i : Instr, decodeCommand w = .ok i →
        (i.wellFormed = false → acceptCommand w s = .next { s with err := .errRange }) ∧
        (i.wellFormed = true → ∀ bits, pushedBits i = some bits →
          (2 ^ 32 ≤ s.total.toNat + bits.length → acceptCommand w s = .next { s with err := .errLength }) ∧
          (s.total.toNat + bits.length < 2 ^ 32 → acceptCommand w s = .next (pushSeq bits s))) ∧
        (∀ p : Bool, i = .hash p → acceptCommand w s = .next (hashEffect p s))))

/-! ### BitEngine -/

/-- 40_bitengine.md R100 and R101: the rotation and the shift, by the formulas of the rules, bit by bit, and at the
corners the rules name, for every word and every amount. -/
def Obligations.RotateAndShift : Prop :=
  ∀ (x : Word) (n : Fin 32),
    ((rotr x n).toNat = x.toNat / 2 ^ n.val + (x.toNat % 2 ^ n.val) * 2 ^ (32 - n.val) ∧
     (∀ i : Fin 32, (rotr x n).getLsbD i.val = x.getLsbD ((i.val + n.val) % 32)) ∧
     rotr x 0 = x ∧ rotr 0 n = 0 ∧ rotr 0xffffffff n = 0xffffffff ∧
     (List.range 32).countP (fun i => (rotr x n).getLsbD i) = (List.range 32).countP (fun i => x.getLsbD i) ∧
     rotr x 31 = x.rotateLeft 1) ∧
    ((shr x n).toNat = x.toNat / 2 ^ n.val ∧
     (∀ i : Fin 32, (shr x n).getLsbD i.val = if i.val + n.val ≤ 31 then x.getLsbD (i.val + n.val) else false) ∧
     shr x 0 = x ∧ (shr x n).toNat < 2 ^ (32 - n.val))

/-- `ROTR` and `SHR` complete, and change nothing but BitEngine's output. That the unit can be evaluated alone, with
its input in `beX` and its output in `beY`, is the model's choice (log entry 2). -/
def Obligations.BitEngineEvaluation : Prop :=
  ∀ (n : Fin 32) (s : State),
    exec (.rotr n) s = .next { s with beY := rotr s.beX n } ∧ exec (.shr n) s = .next { s with beY := shr s.beX n }

/-- 40_bitengine.md R103: the laws of the two primitives. -/
def Obligations.BitEngineLaws : Prop :=
  (∀ x : Word, rotr x 0 = x) ∧
  (∀ (x : Word) (n : Fin 32), (fun y => rotr y n)^[32] x = x) ∧
  (∀ (x : Word) (a b : Fin 32), rotr (rotr x a) b = rotr x (a + b)) ∧
  (∀ (x : Word) (n i : Fin 32), 32 - n.val ≤ i.val → (shr x n).getLsbD i.val = false) ∧
  (∀ (x : Word) (a b : Fin 32), (shr (shr x a) b).toNat = x.toNat / 2 ^ (a.val + b.val) ∧
    (∀ h : a.val + b.val < 32, shr (shr x a) b = shr x ⟨a.val + b.val, h⟩) ∧
    (32 ≤ a.val + b.val → shr (shr x a) b = 0)) ∧
  (∀ (x y : Word) (n : Fin 32),
    (rotr x n).toNat = (shr x n).toNat + (x.toNat % 2 ^ n.val) * 2 ^ (32 - n.val) ∧
    rotr (x ^^^ y) n = rotr x n ^^^ rotr y n ∧ rotr (x &&& y) n = rotr x n &&& rotr y n ∧
    rotr (~~~x) n = ~~~(rotr x n) ∧
    shr (x ^^^ y) n = shr x n ^^^ shr y n ∧ shr (x &&& y) n = shr x n &&& shr y n)

/-! ### The chunk buffer and the micro-operation -/

/-- 20_memory.md R52: `ChunkWriteBit` by the formula of the rule; the other fifteen words, and the other 511 bits, are
unchanged. -/
def Obligations.ChunkWriteBitOverwritesOneBit : Prop :=
  ∀ (buf : Vector Word 16) (p : Fin 512) (b : Bool),
    (∀ j : Fin 16, chunkReadWord (chunkWriteBit buf p b) j =
      if j.val = p.val / 32 then
        (chunkReadWord buf j &&& ~~~(BitVec.twoPow 32 (31 - p.val % 32))) +
          (if b then 1 else 0) * BitVec.twoPow 32 (31 - p.val % 32)
      else chunkReadWord buf j) ∧
    (∀ q : Fin 512, chunkReadBit (chunkWriteBit buf p b) q = if q = p then b else chunkReadBit buf q)

/-- 20_memory.md R51: the bit written at `pos = p` goes to word `p div 32`, bit `31 - (p mod 32)`, of the buffer, or at
`p = 511` of the chunk that is compressed; read as one 512-bit number the buffer has bit address `p` at bit
`511 - p`. -/
def Obligations.ChunkBitAddresses : Prop :=
  (∀ (buf : Vector Word 16) (p : Fin 512) (b : Bool),
    (chunkReadWord (chunkWriteBit buf p b) ⟨p.val / 32, by omega⟩).getLsbD (31 - p.val % 32) = b) ∧
  (∀ (s : State) (b : Bool),
    (s.pos.val ≠ 511 → (pushBit b s).chunk = chunkWriteBit s.chunk s.pos b) ∧
    (s.pos.val = 511 → (pushBit b s).h = compress s.h (chunkWriteBit s.chunk s.pos b))) ∧
  (∀ (buf : Vector Word 16) (p : Fin 512),
    (chunkReadWord buf ⟨p.val / 32, by omega⟩).getLsbD (31 - p.val % 32) = (chunkNumber buf).testBit (511 - p.val))

/-- 41_ingestion.md R120: `pushBit` writes at `total mod 512` and counts; when the new count is a multiple of 512 the
chunk is compressed into `h` and cleared; nothing else changes, and `phase` ends collecting. -/
def Obligations.PushBitMicroOperation : Prop :=
  ∀ (b : Bool) (s : State),
    ((s.total + 1).toNat % 512 ≠ 0 →
      pushBit b s = { s with chunk := chunkWriteBit s.chunk s.pos b, total := s.total + 1 }) ∧
    ((s.total + 1).toNat % 512 = 0 →
      pushBit b s = { s with
        h := compress s.h (chunkWriteBit s.chunk s.pos b), chunk := Vector.replicate 16 0, total := s.total + 1,
        phase := .collecting })

/-! ### Ingestion -/

/-- 30_encoding.md R75: the bit sequence of each ingestion command, first bit first. The sequences of the two value
pushes are the spec's own reading (92_eei_decisions.md D11, D12). -/
def Obligations.PushedBitSequences : Prop :=
  (∀ data, pushedBits (.pushBit data) = some [data.getLsbD 0]) ∧
  (∀ bit count, pushedBits (.pushBits bit count) = some (List.replicate count.toNat (bit.getLsbD 0))) ∧
  (∀ (width : BitVec 12) (value : Word), pushedBits (.pushValLo width value) =
    some ((List.range width.toNat).map fun i => value.getLsbD (width.toNat - 1 - i))) ∧
  (∀ (width : BitVec 12) (value : Word), width.toNat ≤ 32 → pushedBits (.pushValHi width value) =
    some ((List.range width.toNat).map fun i => value.getLsbD (31 - i))) ∧
  (∀ value : Word, pushedBits (.pushByte value) = some ((List.range 8).map fun i => value.getLsbD (7 - i))) ∧
  (∀ value : Word, pushedBits (.pushWord value) = some ((List.range 32).map fun i => value.getLsbD (31 - i)))

/-- 41_ingestion.md R121: each of the six ingestion commands, with its operands in range and its message supported, is
its bit sequence pushed one `pushBit` at a time. -/
def Obligations.IngestionIsRepeatedPushBit : Prop :=
  ∀ (i : Instr) (bits : List Bool) (s : State), pushedBits i = some bits → i.wellFormed = true →
    s.err = .noFault → s.total.toNat + bits.length < 2 ^ 32 →
    exec i s = .next (bits.foldl (fun t b => pushBit b t) s)

/-- 41_ingestion.md R123: `PUSH_BIT`, its effect, its faults, its word, and the chunk boundary. -/
def Obligations.PushBitCommand : Prop :=
  ∀ (data : BitVec 32) (s : State), s.err = .noFault →
    (data.toNat ≤ 1 → s.total.toNat + 1 < 2 ^ 32 →
      exec (.pushBit data) s = .next (pushBit (data.getLsbD 0) s) ∧
      (s.pos.val = 511 → ∃ t, exec (.pushBit data) s = .next t ∧ t.pos = 0 ∧
        t.h = compress s.h (chunkWriteBit s.chunk s.pos (data.getLsbD 0)))) ∧
    (1 < data.toNat → exec (.pushBit data) s = .next { s with err := .errRange }) ∧
    (data.toNat ≤ 1 → 2 ^ 32 ≤ s.total.toNat + 1 → exec (.pushBit data) s = .next { s with err := .errLength }) ∧
    acceptCommand (commandWord 0x2 0 data) s = exec (.pushBit data) s ∧
    (∀ aux : BitVec 12, aux ≠ 0 → acceptCommand (commandWord 0x2 aux data) s = .next { s with err := .errIllegal })

/-- 41_ingestion.md R124: `PUSH_BITS`, its effect, its faults, its word; `count = 0` changes nothing. -/
def Obligations.PushBitsCommand : Prop :=
  ∀ (bit : BitVec 12) (count : BitVec 32) (s : State), s.err = .noFault →
    (bit.toNat ≤ 1 → s.total.toNat + count.toNat < 2 ^ 32 →
      exec (.pushBits bit count) s = .next ((pushBit (bit.getLsbD 0))^[count.toNat] s)) ∧
    (1 < bit.toNat → exec (.pushBits bit count) s = .next { s with err := .errRange }) ∧
    (bit.toNat ≤ 1 → 2 ^ 32 ≤ s.total.toNat + count.toNat →
      exec (.pushBits bit count) s = .next { s with err := .errLength }) ∧
    (bit.toNat ≤ 1 → count = 0 → s.total.toNat < 2 ^ 32 → exec (.pushBits bit count) s = .next s) ∧
    acceptCommand (commandWord 0x3 bit count) s = exec (.pushBits bit count) s

/-- 41_ingestion.md R125: `PUSH_VAL_LO`, its effect, its faults, its word; the value bits above the width are ignored.
Which bits it pushes is the spec's own reading (92_eei_decisions.md D11, D12). -/
def Obligations.PushValLoCommand : Prop :=
  ∀ (width : BitVec 12) (value : BitVec 32) (s : State), s.err = .noFault →
    (1 ≤ width.toNat → width.toNat ≤ 32 → s.total.toNat + width.toNat < 2 ^ 32 →
      exec (.pushValLo width value) s = .next
        (((List.range width.toNat).map fun i => value.getLsbD (width.toNat - 1 - i)).foldl
          (fun t b => pushBit b t) s)) ∧
    (width.toNat = 0 ∨ 32 < width.toNat → exec (.pushValLo width value) s = .next { s with err := .errRange }) ∧
    (1 ≤ width.toNat → width.toNat ≤ 32 → 2 ^ 32 ≤ s.total.toNat + width.toNat →
      exec (.pushValLo width value) s = .next { s with err := .errLength }) ∧
    (∀ value' : BitVec 32, (∀ k, k < width.toNat → value'.getLsbD k = value.getLsbD k) →
      exec (.pushValLo width value') s = exec (.pushValLo width value) s) ∧
    acceptCommand (commandWord 0x4 width value) s = exec (.pushValLo width value) s

/-- 41_ingestion.md R126: `PUSH_VAL_HI`, its effect, its faults, its word; the value bits below are ignored, and it is
`PUSH_VAL_LO` of the shifted value. Which bits it pushes, and in what order, is the spec's own reading
(92_eei_decisions.md D11, D12), on which this statement depends. -/
def Obligations.PushValHiCommand : Prop :=
  ∀ (width : BitVec 12) (value : BitVec 32) (s : State), s.err = .noFault →
    (1 ≤ width.toNat → width.toNat ≤ 32 → s.total.toNat + width.toNat < 2 ^ 32 →
      exec (.pushValHi width value) s = .next
        (((List.range width.toNat).map fun i => value.getLsbD (31 - i)).foldl (fun t b => pushBit b t) s)) ∧
    (width.toNat = 0 ∨ 32 < width.toNat → exec (.pushValHi width value) s = .next { s with err := .errRange }) ∧
    (1 ≤ width.toNat → width.toNat ≤ 32 → 2 ^ 32 ≤ s.total.toNat + width.toNat →
      exec (.pushValHi width value) s = .next { s with err := .errLength }) ∧
    (∀ value' : BitVec 32, (∀ k, 32 - width.toNat ≤ k → value'.getLsbD k = value.getLsbD k) →
      exec (.pushValHi width value') s = exec (.pushValHi width value) s) ∧
    (1 ≤ width.toNat → width.toNat ≤ 32 →
      exec (.pushValHi width value) s = exec (.pushValLo width (value >>> (32 - width.toNat))) s) ∧
    acceptCommand (commandWord 0x5 width value) s = exec (.pushValHi width value) s

/-- 41_ingestion.md R127: `PUSH_BYTE`, its effect, its faults, its word. -/
def Obligations.PushByteCommand : Prop :=
  ∀ (value : BitVec 32) (s : State), s.err = .noFault →
    (value.toNat ≤ 255 → s.total.toNat + 8 < 2 ^ 32 →
      exec (.pushByte value) s = .next
        (((List.range 8).map fun i => value.getLsbD (7 - i)).foldl (fun t b => pushBit b t) s)) ∧
    (255 < value.toNat → exec (.pushByte value) s = .next { s with err := .errRange }) ∧
    (value.toNat ≤ 255 → 2 ^ 32 ≤ s.total.toNat + 8 → exec (.pushByte value) s = .next { s with err := .errLength }) ∧
    acceptCommand (commandWord 0x6 0 value) s = exec (.pushByte value) s ∧
    (∀ aux : BitVec 12, aux ≠ 0 → acceptCommand (commandWord 0x6 aux value) s = .next { s with err := .errIllegal })

/-- 41_ingestion.md R128: `PUSH_WORD`, its effect, its faults, its word; at a `pos` that is a multiple of 32 it sets one
word of the buffer, and at 480 it fills the buffer and triggers a compression. -/
def Obligations.PushWordCommand : Prop :=
  ∀ (value : BitVec 32) (s : State), s.err = .noFault →
    (s.total.toNat + 32 < 2 ^ 32 →
      exec (.pushWord value) s = .next
        (((List.range 32).map fun i => value.getLsbD (31 - i)).foldl (fun t b => pushBit b t) s) ∧
      (s.pos.val % 32 = 0 → s.pos.val ≠ 480 →
        exec (.pushWord value) s = .next { s with
          chunk := s.chunk.set (s.pos.val / 32) value (by omega), total := s.total + 32 }) ∧
      (s.pos.val = 480 → ∃ t, exec (.pushWord value) s = .next t ∧ t.h = compress s.h (s.chunk.set 15 value) ∧
        t.chunk = Vector.replicate 16 0 ∧ t.pos = 0)) ∧
    (2 ^ 32 ≤ s.total.toNat + 32 → exec (.pushWord value) s = .next { s with err := .errLength }) ∧
    acceptCommand (commandWord 0x7 0 value) s = exec (.pushWord value) s ∧
    (∀ aux : BitVec 12, aux ≠ 0 → acceptCommand (commandWord 0x7 aux value) s = .next { s with err := .errIllegal })

/-- 60_exceptions.md R212: the out-of-range operands, each instruction named, whatever `total` is (R213: range before
length); nothing else raises `ERR_RANGE`. -/
def Obligations.RangeFaultsAreExactlyThese : Prop :=
  ∀ s : State, s.err = .noFault →
    (∀ data : BitVec 32, exec (.pushBit data) s = .next { s with err := .errRange } ↔ 1 < data.toNat) ∧
    (∀ (bit : BitVec 12) (count : BitVec 32),
      exec (.pushBits bit count) s = .next { s with err := .errRange } ↔ 1 < bit.toNat) ∧
    (∀ (width : BitVec 12) (value : BitVec 32),
      (exec (.pushValLo width value) s = .next { s with err := .errRange } ↔ width.toNat = 0 ∨ 32 < width.toNat) ∧
      (exec (.pushValHi width value) s = .next { s with err := .errRange } ↔ width.toNat = 0 ∨ 32 < width.toNat)) ∧
    (∀ value : BitVec 32, exec (.pushByte value) s = .next { s with err := .errRange } ↔ 255 < value.toNat) ∧
    (∀ i : Instr, i.wellFormed = true → ∀ t, exec i s = .next t → t.err ≠ .errRange)

/-- 60_exceptions.md R217 and 41_ingestion.md R122: `ERR_LENGTH` exactly when `total + n` reaches 2^32, nothing pushed;
`HASH` never raises it. -/
def Obligations.LengthFaults : Prop :=
  (∀ (i : Instr) (bits : List Bool) (s t : State), pushedBits i = some bits → i.wellFormed = true →
    s.err = .noFault → exec i s = .next t →
    (t.err = .errLength ↔ 2 ^ 32 ≤ s.total.toNat + bits.length) ∧
    (t.err = .errLength → t = { s with err := .errLength })) ∧
  (∀ (p : Bool) (s t : State), s.err = .noFault → exec (.hash p) s = .next t → t.err = .noFault)

/-- Frame of the six ingestion commands below the chunk boundary (10_state.md R44, 41_ingestion.md R131, R133): only
`total` and the buffer change, and of the buffer only the `n` bit addresses from `pos` on, which take the bits in
order. -/
def Obligations.IngestionBelowTheBoundary : Prop :=
  ∀ (i : Instr) (bits : List Bool) (s : State), pushedBits i = some bits → i.wellFormed = true →
    s.err = .noFault → s.total.toNat + bits.length < 2 ^ 32 → s.pos.val + bits.length ≤ 511 →
    ∃ t, exec i s = .next t ∧
      t = { s with chunk := t.chunk, total := s.total + BitVec.ofNat 64 bits.length } ∧
      (∀ p : Fin 512, p.val < s.pos.val ∨ s.pos.val + bits.length ≤ p.val →
        chunkReadBit t.chunk p = chunkReadBit s.chunk p) ∧
      (∀ k (h : k < bits.length), ∃ p : Fin 512, p.val = s.pos.val + k ∧ chunkReadBit t.chunk p = bits[k])

/-- The six ingestion commands from any buffer whose bits from `pos` on are 0 (10_state.md R31), across any number of
boundaries (41_ingestion.md R120, R129; 20_memory.md R56): the buffered bits with the pushed bits after them are cut
into chunks, one compression each, `(pos + n) div 512` in all, and the rest is buffered. -/
def Obligations.IngestionAcrossBoundaries : Prop :=
  ∀ (i : Instr) (bits : List Bool) (s : State), pushedBits i = some bits → i.wellFormed = true →
    s.err = .noFault → s.total.toNat + bits.length < 2 ^ 32 →
    (∀ p : Fin 512, s.pos ≤ p → chunkReadBit s.chunk p = false) →
    ∃ t, exec i s = .next t ∧
      t.h = hashChunks s.h (s.bufferedBits ++ bits) ((s.pos.val + bits.length) / 512) ∧
      t.chunk = chunkOf ((s.bufferedBits ++ bits).drop (512 * ((s.pos.val + bits.length) / 512))) ∧
      t.pos.val = (s.pos.val + bits.length) % 512 ∧
      t.total.toNat = s.total.toNat + bits.length ∧
      t.D = s.D ∧ t.digestValid = s.digestValid ∧ t.err = s.err ∧ (s.phase = .collecting → t.phase = .collecting)

/-- 41_ingestion.md R131: the closed form of a push inside one chunk, on the buffer as one 512-bit number. -/
def Obligations.ClosedFormInsideOneChunk : Prop :=
  ∀ (i : Instr) (bits : List Bool) (s : State), pushedBits i = some bits → i.wellFormed = true →
    s.err = .noFault → s.total.toNat + bits.length < 2 ^ 32 → s.pos.val + bits.length ≤ 511 →
    (∀ p : Fin 512, s.pos ≤ p → chunkReadBit s.chunk p = false) →
    ∃ t, exec i s = .next t ∧ t.h = s.h ∧ t.total = s.total + BitVec.ofNat 64 bits.length ∧
      chunkNumber t.chunk = chunkNumber s.chunk + bitsValue bits * 2 ^ (512 - s.pos.val - bits.length)

/-- 20_memory.md R54: a byte pushed at a `pos` that is a multiple of 8 becomes one byte lane of one word, bits
`31-8m .. 24-8m` of word `pos div 32`, `m = (pos mod 32) div 8`, and no other bit changes; the last byte of the buffer
lands so in the chunk that is compressed. -/
def Obligations.AlignedByteFillsOneLane : Prop :=
  ∀ (value : BitVec 32) (s : State), value.toNat ≤ 255 → s.err = .noFault → s.total.toNat + 8 < 2 ^ 32 →
    s.pos.val % 8 = 0 →
    ∃ t buf, exec (.pushByte value) s = .next t ∧
      (s.pos.val ≠ 504 → t.chunk = buf) ∧ (s.pos.val = 504 → t.h = compress s.h buf) ∧
      ∀ (j : Fin 16) (k : Fin 32), (chunkReadWord buf j).getLsbD k.val =
        if j.val = s.pos.val / 32 ∧ 24 - 8 * (s.pos.val % 32 / 8) ≤ k.val ∧ k.val ≤ 31 - 8 * (s.pos.val % 32 / 8) then
          value.getLsbD (k.val - (24 - 8 * (s.pos.val % 32 / 8)))
        else (chunkReadWord s.chunk j).getLsbD k.val

/-- 41_ingestion.md R132: the equivalences between commands, equal outcomes and equal faults, in every state. Those with
`PUSH_VAL_LO` or `PUSH_VAL_HI` rest on the spec's own reading of which bits the two push (log entry 9;
92_eei_decisions.md D11, D12; 93_implementation_defined.md U13). A split form that ends in a length fault is left out:
R132 excepts it. -/
def Obligations.CommandEquivalences : Prop :=
  ∀ s : State,
    (∀ b : Bool, exec (.pushBit (if b then 1 else 0)) s = exec (.pushBits (if b then 1 else 0) 1) s ∧
      exec (.pushBit (if b then 1 else 0)) s = exec (.pushValLo 1 (if b then 1 else 0)) s) ∧
    (∀ value : BitVec 32, value.toNat ≤ 255 → exec (.pushByte value) s = exec (.pushValLo 8 value) s) ∧
    (∀ value : BitVec 32, exec (.pushWord value) s = exec (.pushValLo 32 value) s ∧
      exec (.pushWord value) s = exec (.pushValHi 32 value) s) ∧
    (∀ (bit : BitVec 12) (m n : BitVec 32), 1 < bit.toNat ∨ s.total.toNat + m.toNat + n.toNat < 2 ^ 32 →
      runBurst [.pushBits bit m, .pushBits bit n] s = exec (.pushBits bit (m + n)) s) ∧
    (∀ b0 b1 b2 b3 : BitVec 8, s.total.toNat + 32 < 2 ^ 32 →
      runBurst [.pushByte (b0.setWidth 32), .pushByte (b1.setWidth 32), .pushByte (b2.setWidth 32),
        .pushByte (b3.setWidth 32)] s = exec (.pushWord (b0 ++ b1 ++ b2 ++ b3)) s)

/-- 20_memory.md R63: what a burst of ingestion commands without a fault does depends only on the bits it pushes, not
on how they are divided among commands. -/
def Obligations.FragmentationIndependence : Prop :=
  ∀ (as bs : List Instr) (xs ys : List (List Bool)) (s : State),
    as.map pushedBits = xs.map some → bs.map pushedBits = ys.map some →
    (∀ i ∈ as, i.wellFormed = true) → (∀ i ∈ bs, i.wellFormed = true) →
    xs.flatten = ys.flatten → s.err = .noFault → s.total.toNat + xs.flatten.length < 2 ^ 32 →
    ∃ t, runBurst as s = .next t ∧ runBurst bs s = .next t ∧ t.total.toNat = s.total.toNat + xs.flatten.length

/-- 42_finalization.md R158, ingestion: an engine that has taken the message `m` has, after an ingestion command that
completes, taken `m` with the pushed bits after it. -/
def Obligations.IngestionAppendsToTheMessage : Prop :=
  ∀ (i : Instr) (bits m : List Bool) (s : State), pushedBits i = some bits → i.wellFormed = true →
    s.err = .noFault → s.Carries m → m.length + bits.length < 2 ^ 32 →
    ∃ t, exec i s = .next t ∧ t.Carries (m ++ bits) ∧ t.err = .noFault ∧ t.D = s.D ∧ t.digestValid = s.digestValid

/-! ### Finalization -/

/-- 42_finalization.md R151: `K` is the least number of zeros that pads `L + 1 + K + 64` to a multiple of 512, and it is
`447 - r` or `959 - r` for `r = L mod 512`. -/
def Obligations.PaddingCount : Prop :=
  ∀ L : Nat,
    ((padZeros L : Int) = (447 - (L : Int)) % 512) ∧
    (L + 1 + padZeros L + 64) % 512 = 0 ∧ padZeros L < 512 ∧
    (∀ k, (L + 1 + k + 64) % 512 = 0 → padZeros L ≤ k) ∧
    (L % 512 ≤ 447 → padZeros L = 447 - L % 512) ∧
    (448 ≤ L % 512 → padZeros L = 959 - L % 512)

/-- 42_finalization.md R150, the pseudocode: a 1, `K` zeros, the latched `L` from its most significant bit, one `pushBit`
each, then the snapshot and the reset or the restoration. It completes in every state that is not faulted; the only
fault is a word with a must-be-zero bit set. -/
def Obligations.HashCommand : Prop :=
  ∀ (p : Bool) (s : State), s.err = .noFault →
    (∃ t, exec (.hash p) s = .next t ∧
      let padded := ((List.range 64).map fun i => s.total.getLsbD (63 - i)).foldl (fun u b => pushBit b u)
        ((pushBit false)^[((447 - (s.total.toNat : Int)) % 512).toNat] (pushBit true s))
      t = if p then { s with D := padded.h, digestValid := true, phase := .collecting }
          else { s with h := IV, total := 0, chunk := Vector.replicate 16 0, D := padded.h, digestValid := true,
                        phase := .collecting }) ∧
    acceptCommand (commandWord 0x8 (if p then 1 else 0) 0) s = exec (.hash p) s ∧
    (∀ (aux : BitVec 12) (data : BitVec 32), 1 < aux.toNat ∨ data ≠ 0 →
      acceptCommand (commandWord 0x8 aux data) s = .next { s with err := .errIllegal })

/-- 42_finalization.md R154 and R152. At most 447 buffered bits: one compression, of the buffered bits, a 1, zeros up to
bit address 447, and the 64-bit length. At least 448: two compressions, of the buffered bits with a 1 and zeros, then
of zeros with the length. For `HASH` and `HASH.P`, in every state that is not faulted. -/
def Obligations.HashPadsOneOrTwoChunks : Prop :=
  ∀ (p : Bool) (s : State), s.err = .noFault →
    (s.pos.val ≤ 447 → ∃ t last, exec (.hash p) s = .next t ∧ t.D = compress s.h last ∧
      ∀ q : Fin 512, chunkReadBit last q =
        if q.val < s.pos.val then chunkReadBit s.chunk q
        else if q.val = s.pos.val then true
        else if q.val < 448 then false
        else s.total.getLsbD (511 - q.val)) ∧
    (448 ≤ s.pos.val → ∃ t first last, exec (.hash p) s = .next t ∧ t.D = compress (compress s.h first) last ∧
      (∀ q : Fin 512, chunkReadBit first q =
        if q.val < s.pos.val then chunkReadBit s.chunk q else if q.val = s.pos.val then true else false) ∧
      (∀ q : Fin 512, chunkReadBit last q = if q.val < 448 then false else s.total.getLsbD (511 - q.val)))

/-- 42_finalization.md R155: a destructive `HASH` completes in every state that is not faulted and leaves the reset
state but for the digest, which is `h` after the padding (R150 step 6) and the SHA-256 of the message taken; a second
one straight after gives the digest of the empty message. -/
def Obligations.DestructiveHashEndState : Prop :=
  ∀ s : State, s.err = .noFault →
    ∃ t, exec (.hash false) s = .next t ∧
      t = { s with h := IV, total := 0, chunk := Vector.replicate 16 0, D := (appendPadding s).h,
                   digestValid := true, phase := .collecting } ∧
      (∀ m, s.Carries m → t.D = sha256 m) ∧
      ∃ u, exec (.hash false) t = .next u ∧ u.D = sha256 [] ∧ u.digestValid = true

/-- 42_finalization.md R156: a peek completes in every state that is not faulted, preserves `h`, `chunk` and `total`,
gives the digest of the bits taken so far and the value a destructive `HASH` would give; a burst of ingestion commands
and a `HASH` after it that does not fault ends as if the peek had never been. -/
def Obligations.PeekPreservesTheMessage : Prop :=
  ∀ s : State, s.err = .noFault → s.phase = .collecting →
    ∃ t, exec (.hash true) s = .next t ∧ t = { s with D := t.D, digestValid := true } ∧
      (∀ m, s.Carries m → t.D = sha256 m) ∧
      (∃ u, exec (.hash false) t = .next u ∧ exec (.hash false) s = .next u ∧ u.D = t.D) ∧
      (∀ (is : List Instr) (u : State), (∀ i ∈ is, isIngestion i) →
        runBurst (is ++ [.hash false]) s = .next u → u.err = .noFault →
        runBurst (is ++ [.hash false]) t = .next u)

/-- 42_finalization.md R158: `HASH` and `HASH.P` write the SHA-256 digest of the message taken; after `HASH` the engine
has taken the empty message, after `HASH.P` the same one. -/
def Obligations.HashComputesTheDigestOfTheMessage : Prop :=
  ∀ (m : List Bool) (s : State), s.Carries m → s.err = .noFault →
    (∃ t, exec (.hash false) s = .next t ∧ t.D = sha256 m ∧ t.digestValid = true ∧ t.Carries []) ∧
    (∃ t, exec (.hash true) s = .next t ∧ t.D = sha256 m ∧ t.digestValid = true ∧ t.Carries m)

/-- 42_finalization.md R157: on an engine that has received no bit, `HASH` and `HASH.P` give the fixed digest of the
empty message, whatever the buffer holds. -/
def Obligations.EmptyMessageDigest : Prop :=
  ∀ (p : Bool) (s : State), s.err = .noFault → s.h = IV → s.total = 0 →
    padZeros 0 = 447 ∧
    ∃ t, exec (.hash p) s = .next t ∧ t.digestValid = true ∧
      t.D = compress IV ((Vector.replicate 16 0).set 0 0x80000000) ∧
      t.D = #v[0xe3b0c442, 0x98fc1c14, 0x9afbf4c8, 0x996fb924, 0x27ae41e4, 0x649b934c, 0xa495991b, 0x7852b855]

/-- 30_encoding.md R81: `HASHOF_BYTES` and `HASHOF_BITS` give the digest of their sequence, from every state. -/
def Obligations.HashofGivesTheDigest : Prop :=
  (∀ (vs : List (BitVec 32)) (s : State), (∀ v ∈ vs, v.toNat ≤ 255) → 8 * vs.length < 2 ^ 32 →
    ∃ t, runBurst (hashofBytes vs) s = .next t ∧ t.err = .noFault ∧ t.digestValid = true ∧
      t.D = sha256 (vs.flatMap fun v => (List.range 8).map fun i => v.getLsbD (7 - i))) ∧
  (∀ (bs : List (BitVec 32)) (s : State), (∀ b ∈ bs, b.toNat ≤ 1) → bs.length < 2 ^ 32 →
    ∃ t, runBurst (hashofBits bs) s = .next t ∧ t.err = .noFault ∧ t.digestValid = true ∧
      t.D = sha256 (bs.map fun b => b.getLsbD 0))

/-! ### Compression -/

/-- 43_compression.md R181: the message schedule, word by word; an all-zero chunk gives an all-zero schedule. -/
def Obligations.MessageSchedule : Prop :=
  (∀ buf : Vector Word 16,
    (∀ i (hi : i < 16), (schedule buf)[i] = chunkReadWord buf ⟨i, hi⟩) ∧
    (∀ i (hi : i < 64), 16 ≤ i →
      (schedule buf)[i] = (schedule buf)[i - 16] +
        (rotr (schedule buf)[i - 15] 7 ^^^ rotr (schedule buf)[i - 15] 18 ^^^ shr (schedule buf)[i - 15] 3) +
        (schedule buf)[i - 7] +
        (rotr (schedule buf)[i - 2] 17 ^^^ rotr (schedule buf)[i - 2] 19 ^^^ shr (schedule buf)[i - 2] 10))) ∧
  (∀ i (hi : i < 64), (schedule (Vector.replicate 16 0))[i] = 0)

/-- 43_compression.md R183, R185 and R186: there is a sequence of working vectors that starts at `h`, follows the round
formulas with `K[i]` and `w[i]` for the 64 rounds, every right-hand side on the old vector, and is added to `h` at the
end. -/
def Obligations.CompressionRounds : Prop :=
  ∀ (h : Vector Word 8) (buf : Vector Word 16), ∃ v : Nat → Vector Word 8,
    v 0 = h ∧
    (∀ i (hi : i < 64),
      let e := v i
      let S1 := rotr e[4] 6 ^^^ rotr e[4] 11 ^^^ rotr e[4] 25
      let chosen := (e[4] &&& e[5]) ^^^ (~~~e[4] &&& e[6])
      let t1 := e[7] + S1 + chosen + K[i] + (schedule buf)[i]
      let S0 := rotr e[0] 2 ^^^ rotr e[0] 13 ^^^ rotr e[0] 22
      let majority := (e[0] &&& e[1]) ^^^ (e[0] &&& e[2]) ^^^ (e[1] &&& e[2])
      let t2 := S0 + majority
      v (i + 1) = #v[t1 + t2, e[0], e[1], e[2], e[3] + t1, e[4], e[5], e[6]]) ∧
    (∀ j (hj : j < 8), (compress h buf)[j] = h[j] + (v 64)[j])

/-- 43_compression.md R180 and R187: `compressChunk` puts `compress(h, chunk)` into `h`, clears the chunk, and changes
nothing else. -/
def Obligations.CompressChunkEffect : Prop :=
  ∀ s : State, compressChunk s = { s with h := compress s.h s.chunk, chunk := Vector.replicate 16 0 }

/-- 43_compression.md R184: bit by bit `Ch` selects and `Maj` is the majority. -/
def Obligations.ChooseAndMajorityBitByBit : Prop :=
  ∀ (x y z : Word) (i : Nat), i < 32 →
    (ch x y z).getLsbD i = (if x.getLsbD i then y.getLsbD i else z.getLsbD i) ∧
    ((maj x y z).getLsbD i = true ↔ 2 ≤ (x.getLsbD i).toNat + (y.getLsbD i).toNat + (z.getLsbD i).toNat)

/-- 43_compression.md R192: after the first 512 bits of a message pushed on a new engine, `h` is the raw hash of the
first chunk, and after 1024 bits that of both. -/
def Obligations.ChunkingProperty : Prop :=
  ∀ (first second : List Bool) (s : State), s.Carries [] → first.length = 512 → second.length = 512 →
    (pushSeq first s).h = compress IV (chunkOf first) ∧
    (pushSeq (first ++ second) s).h = compress (compress IV (chunkOf first)) (chunkOf second)

/-! ### Faults and whole-machine rules -/

/-- 60_exceptions.md R214: a command that raises a fault changes `err` and nothing else, and a fault is raised only
while `err` is 0, so the first one stays until `INIT`. For every instruction and for every illegal word. -/
def Obligations.FaultChangesOnlyErr : Prop :=
  (∀ (i : Instr) (s t : State), exec i s = .next t → t.err ≠ s.err → t.err ≠ .noFault →
    s.err = .noFault ∧ t = { s with err := t.err }) ∧
  (∀ (w : CmdWord) (s t : State), acceptCommand w s = .next t → t.err ≠ s.err → t.err ≠ .noFault →
    s.err = .noFault ∧ t = { s with err := t.err })

/-- 60_exceptions.md R215: while `err` is not 0 every accepted word but the exact `INIT` word is ignored. -/
def Obligations.FaultStateIgnoresCommands : Prop :=
  ∀ (w : CmdWord) (s : State), s.err ≠ .noFault → w ≠ 0x100000000000 → acceptCommand w s = .next s

/-- 60_exceptions.md R216: only `INIT` and `Reset` clear `err`, and both discard the message and the digest. Over every
event of the model's ports, the model's own evaluation of BitEngine alone included (log entries 1 and 2). -/
def Obligations.OnlyInitAndResetLeaveTheFaultState : Prop :=
  ∀ (e : PortEvent) (s t : State), takeEvent e s = .next t → s.err ≠ .noFault → t.err = .noFault →
    (e = .reset ∨ e = .command 0x100000000000) ∧ t.AtReset

/-- 10_state.md R29: `digest_valid` is set by every `HASH` that is not ignored, cleared by `INIT` and `Reset`, and
changed by nothing else. -/
def Obligations.DigestValidChanges : Prop :=
  (∀ (p : Bool) (s t : State), s.err = .noFault → exec (.hash p) s = .next t → t.digestValid = true) ∧
  (∀ s t : State, exec .init s = .next t → t.digestValid = false) ∧ State.reset.digestValid = false ∧
  (∀ s t : State, takeEvent .reset s = .next t → t.digestValid = false) ∧
  (∀ (i : Instr) (s t : State), i ≠ .init → (∀ p, i ≠ .hash p) → exec i s = .next t →
    t.digestValid = s.digestValid) ∧
  (∀ (w : CmdWord) (r : Reject) (s t : State), decodeCommand w = .error r → acceptCommand w s = .next t →
    t.digestValid = s.digestValid)

/-- 10_state.md R44, the access table, row by row: what each command writes (a register not named in an update keeps
its value), and what it does not read (a change to that register before the command is the same change after it, or
none where the command writes it). Rows: an ingestion command, below the boundary and across it; `HASH`; `HASH.P`;
`INIT`; a word that is no command; the `Reset` event. The last clause is no row of R44: that `ROTR` and `SHR` can be
executed alone, and write `beY`, is the model's choice (log entry 2). -/
def Obligations.AccessByCommand : Prop :=
  (∀ (i : Instr) (bits : List Bool) (s t : State), pushedBits i = some bits → exec i s = .next t →
    t = { s with h := t.h, chunk := t.chunk, total := t.total, err := t.err, phase := t.phase } ∧
    (t.err ≠ s.err → t = { s with err := t.err }) ∧
    (∀ D valid, exec i { s with D := D, digestValid := valid } = .next { t with D := D, digestValid := valid }) ∧
    (s.pos.val + bits.length ≤ 511 →
      (∀ h, exec i { s with h := h } = .next { t with h := h }) ∧ t.h = s.h ∧
      (s.err = .noFault → t.err = .noFault → ∀ buf, ∃ buf',
        exec i { s with chunk := buf } = .next { t with chunk := buf' } ∧
        ∀ p : Fin 512, chunkReadBit buf' p =
          if s.pos.val ≤ p.val ∧ p.val < s.pos.val + bits.length then chunkReadBit t.chunk p
          else chunkReadBit buf p))) ∧
  (∀ s : State, s.err = .noFault → ∃ t, exec (.hash false) s = .next t ∧
    t = { s with h := IV, chunk := Vector.replicate 16 0, total := 0, D := t.D, digestValid := true,
                 phase := .collecting } ∧
    ∀ D valid, exec (.hash false) { s with D := D, digestValid := valid } = .next t) ∧
  (∀ s : State, s.err = .noFault → ∃ t, exec (.hash true) s = .next t ∧
    t = { s with D := t.D, digestValid := true, phase := .collecting } ∧
    ∀ D valid, exec (.hash true) { s with D := D, digestValid := valid } = .next t) ∧
  (∀ (p : Bool) (s : State), s.err ≠ .noFault → exec (.hash p) s = .next s) ∧
  (∀ s : State, exec .init s = .next { s with
    h := IV, chunk := Vector.replicate 16 0, total := 0, D := Vector.replicate 8 0, digestValid := false,
    err := .noFault, phase := .collecting }) ∧
  (∀ (w : CmdWord) (s t : State), reservedOpcode w ∨ nonZeroMbz w → acceptCommand w s = .next t →
    t = { s with err := if s.err = .noFault then .errIllegal else s.err } ∧
    ∀ s' : State, s'.err = s.err → acceptCommand w s' = .next { s' with err := t.err }) ∧
  (∀ s : State, takeEvent .reset s = .next { s with
    h := IV, chunk := Vector.replicate 16 0, total := 0, D := Vector.replicate 8 0, digestValid := false,
    err := .noFault, phase := .collecting }) ∧
  (∀ (n : Fin 32) (s t : State), exec (.rotr n) s = .next t ∨ exec (.shr n) s = .next t →
    t = { s with beY := t.beY })

/-- 70_reset_and_hazards.md R253 and 30_encoding.md R77: from every state, whatever is presented, the step completes:
no word stops the core. -/
def Obligations.TheCoreNeverStops : Prop :=
  (∀ s : State, ∃ t, step s = .next t) ∧ (∀ (w : CmdWord) (s : State), ∃ t, acceptCommand w s = .next t)

/-- 20_memory.md R61: the commands a host presents take effect one at a time, in order, each complete before the next:
running the machine over presented words is accepting them one after another. The list of presented words is the
model's way to hold the inputs (log entry 1). -/
def Obligations.CommandsTakeEffectInOrder : Prop :=
  ∀ (w : CmdWord) (ws : List CmdWord) (s t : State), s.phase = .collecting →
    acceptCommand w { s with host := ws.map .command } = .next t →
    Host.Core.run Sys2Proof.core (ws.length + 1) (s.presenting (w :: ws)) =
      Host.Core.run Sys2Proof.core ws.length (t.presenting ws) ∧
    t.phase = .collecting ∧ t.host = ws.map .command

/-- 60_exceptions.md R223: a step of engine `j` is the machine's own `step` on its state and touches no other engine;
steps of different engines may be taken in either order; and after any interleaving every engine is where running
alone for its own number of steps takes it. That a system is a list of states of which one steps at a time is the
model's reading (log entry 11). -/
def Obligations.EnginesAreIndependent : Prop :=
  (∀ (sys : System) (j : Nat) (s t : State), sys[j]? = some s → step s = .next t →
    (sys.stepEngine j)[j]? = some t) ∧
  (∀ (sys : System) (j k : Nat), j ≠ k →
    (sys.stepEngine j).stepEngine k = (sys.stepEngine k).stepEngine j ∧ (sys.stepEngine j)[k]? = sys[k]?) ∧
  (∀ (order : List Nat) (sys : System) (k : Nat) (s : State), sys[k]? = some s →
    ∃ t, Host.Core.run Sys2Proof.core (order.count k) s = .next t ∧
      (order.foldl (fun sys j => sys.stepEngine j) sys)[k]? = some t)

/-- The invariant of the state between commands holds at reset. -/
def Obligations.ResetSatisfiesTheInvariant : Prop := State.reset.Inv

/-- 10_state.md R28, R31, R38, R21: every step keeps the invariant, from every state that has it, whatever is
presented. -/
def Obligations.StepKeepsTheInvariant : Prop := ∀ s t : State, s.Inv → step s = .next t → t.Inv

/-- 10_state.md R21, 42_finalization.md R158: from a state that carries some message, every step leads to a state that
carries some message: `h` is always the hash of the chunks pushed so far, and `total` their exact count. -/
def Obligations.EveryStepCarriesAMessage : Prop :=
  ∀ s t : State, (∃ m, s.Carries m) → step s = .next t → ∃ m, t.Carries m
end

