-- ==== Sys2Proof/Laws/Decode.lean ====
section
/-! SUPPORT. Fields of a composed word, and what a decoded word must have been. -/

namespace Sys2Proof

theorem commandWord_getLsbD (op : BitVec 4) (aux : BitVec 12) (data : BitVec 32) (i : Nat) :
    (commandWord op aux data).getLsbD i =
      if i < 32 then data.getLsbD i else if i < 44 then aux.getLsbD (i - 32) else op.getLsbD (i - 44) := by
  unfold commandWord
  rw [BitVec.getLsbD_append]
  by_cases h : i < 32
  · simp [h]
  · rw [BitVec.getLsbD_append]
    by_cases h2 : i < 44
    · have : i - 32 < 12 := by omega
      simp [h, h2, this]
    · have h3 : ¬ i - 32 < 12 := by omega
      have h4 : i - 32 - 12 = i - 44 := by omega
      simp only [h, h2, h3, h4]

@[simp] theorem opField_commandWord (op : BitVec 4) (aux : BitVec 12) (data : BitVec 32) :
    opField (commandWord op aux data) = op := by
  refine BitVec.eq_of_getLsbD_eq fun i hi => ?_
  have h1 : ¬ 44 + i < 32 := by omega
  have h2 : ¬ 44 + i < 44 := by omega
  have h3 : 44 + i - 44 = i := by omega
  rw [opField, BitVec.getLsbD_extractLsb', commandWord_getLsbD, if_neg h1, if_neg h2, h3]
  simp [hi]

@[simp] theorem auxField_commandWord (op : BitVec 4) (aux : BitVec 12) (data : BitVec 32) :
    auxField (commandWord op aux data) = aux := by
  refine BitVec.eq_of_getLsbD_eq fun i hi => ?_
  have h1 : ¬ 32 + i < 32 := by omega
  have h2 : 32 + i < 44 := by omega
  have h3 : 32 + i - 32 = i := by omega
  rw [auxField, BitVec.getLsbD_extractLsb', commandWord_getLsbD, if_neg h1, if_pos h2, h3]
  simp [hi]

@[simp] theorem dataField_commandWord (op : BitVec 4) (aux : BitVec 12) (data : BitVec 32) :
    dataField (commandWord op aux data) = data := by
  refine BitVec.eq_of_getLsbD_eq fun i hi => ?_
  have h1 : 0 + i < 32 := by omega
  rw [dataField, BitVec.getLsbD_extractLsb', commandWord_getLsbD, if_pos h1]
  simp [hi]

/-- A command word is its three fields (30_encoding.md R71). -/
theorem commandWord_fields (w : CmdWord) : commandWord (opField w) (auxField w) (dataField w) = w := by
  refine BitVec.eq_of_getLsbD_eq fun i hi => ?_
  rw [commandWord_getLsbD, opField, auxField, dataField, BitVec.getLsbD_extractLsb', BitVec.getLsbD_extractLsb',
    BitVec.getLsbD_extractLsb']
  by_cases h : i < 32
  · rw [if_pos h]; simp [h]
  · by_cases h2 : i < 44
    · have h3 : i - 32 < 12 := by omega
      have h4 : 32 + (i - 32) = i := by omega
      rw [if_neg h, if_pos h2, h4]; simp [h3]
    · have h3 : i - 44 < 4 := by omega
      have h4 : 44 + (i - 44) = i := by omega
      rw [if_neg h, if_neg h2, h4]; simp [h3]

/-- Two words with the same fields are the same word. -/
theorem cmdWord_ext {a b : CmdWord} (h1 : opField a = opField b) (h2 : auxField a = auxField b)
    (h3 : dataField a = dataField b) : a = b := by
  rw [← commandWord_fields a, ← commandWord_fields b, h1, h2, h3]

/-- The must-be-zero bits `aux[11:1]` of `HASH` are zero iff `aux` is at most 1 (30_encoding.md R73). -/
theorem hash_mbz_eq (a : BitVec 12) : (a.extractLsb' 1 11 == 0) = decide (a.toNat ≤ 1) := by
  revert a; decide +kernel

theorem hash_aux_eq (a : BitVec 12) (h : (a.extractLsb' 1 11 == 0) = true) :
    (if a.getLsbD 0 then (1 : BitVec 12) else 0) = a := by
  revert a; decide +kernel

/-- A word that decodes is composed of the fields the instruction holds: what every case of the decoder says. -/
theorem encode_of_decodeCommand {w : CmdWord} {i : Instr} (h : decodeCommand w = .ok i) : encode i = .cmd w := by
  have key : ∀ n : Nat, (opField w).toNat = n → w = commandWord (BitVec.ofNat 4 n) (auxField w) (dataField w) := by
    intro n hn
    have : opField w = BitVec.ofNat 4 n := by rw [← hn]; simp
    rw [← this, commandWord_fields]
  unfold decodeCommand at h
  split at h
  all_goals first | (cases h; done) | skip
  all_goals
    rename_i hop
    have hw := key _ hop
    simp only [requireZero] at h
  · split at h
    · rename_i hz; cases h; simp at hz; rw [encode, hw, hz.1, hz.2]; simp
    · cases h
  · split at h
    · rename_i hz; cases h; simp at hz; rw [encode]; conv => rhs; rw [hw, hz]
      simp
    · cases h
  · cases h; rw [encode]; conv => rhs; rw [hw]
    simp
  · cases h; rw [encode]; conv => rhs; rw [hw]
    simp
  · cases h; rw [encode]; conv => rhs; rw [hw]
    simp
  · split at h
    · rename_i hz; cases h; simp at hz; rw [encode]; conv => rhs; rw [hw, hz]
      simp
    · cases h
  · split at h
    · rename_i hz; cases h; simp at hz; rw [encode]; conv => rhs; rw [hw, hz]
      simp
    · cases h
  · split at h
    · rename_i hz
      cases h
      rw [Bool.and_eq_true] at hz
      have hd : dataField w = 0 := by simpa using hz.2
      rw [encode, hash_aux_eq _ hz.1]
      conv => rhs; rw [hw, hd]
      simp
    · cases h

/-- Only one word is an `INIT` (30_encoding.md R74 step 1). -/
theorem word_of_init {w : CmdWord} (h : decodeCommand w = .ok .init) : w = 0x100000000000 := by
  have := encode_of_decodeCommand h
  simp only [encode, Code.cmd.injEq] at this
  rw [← this]; decide

/-- A BitEngine instruction is no command (30_encoding.md R79). -/
theorem decodeCommand_ne_bitEngine (w : CmdWord) (n : Fin 32) :
    decodeCommand w ≠ .ok (.rotr n) ∧ decodeCommand w ≠ .ok (.shr n) := by
  constructor <;> intro h <;> have := encode_of_decodeCommand h <;> simp [encode] at this

end Sys2Proof
end

