-- ==== Sys2Proof/Laws/State.lean ====
section
/-! SUPPORT. One lemma per field per named update of the state. -/

namespace Sys2Proof.Machine

@[simp] theorem initialise_h (s : State) : (initialise s).h = IV := rfl
@[simp] theorem initialise_chunk (s : State) : (initialise s).chunk = zeroChunk := rfl
@[simp] theorem initialise_total (s : State) : (initialise s).total = 0 := rfl
@[simp] theorem initialise_D (s : State) : (initialise s).D = zeroDigest := rfl
@[simp] theorem initialise_digestValid (s : State) : (initialise s).digestValid = false := rfl
@[simp] theorem initialise_err (s : State) : (initialise s).err = .noFault := rfl
@[simp] theorem initialise_phase (s : State) : (initialise s).phase = .collecting := rfl
@[simp] theorem initialise_beX (s : State) : (initialise s).beX = s.beX := rfl
@[simp] theorem initialise_beY (s : State) : (initialise s).beY = s.beY := rfl
@[simp] theorem initialise_host (s : State) : (initialise s).host = s.host := rfl

@[simp] theorem takeFault_h (code : Err) (s : State) : (takeFault code s).h = s.h := rfl
@[simp] theorem takeFault_chunk (code : Err) (s : State) : (takeFault code s).chunk = s.chunk := rfl
@[simp] theorem takeFault_total (code : Err) (s : State) : (takeFault code s).total = s.total := rfl
@[simp] theorem takeFault_D (code : Err) (s : State) : (takeFault code s).D = s.D := rfl
@[simp] theorem takeFault_digestValid (code : Err) (s : State) : (takeFault code s).digestValid = s.digestValid := rfl
@[simp] theorem takeFault_err (code : Err) (s : State) : (takeFault code s).err = code := rfl
@[simp] theorem takeFault_phase (code : Err) (s : State) : (takeFault code s).phase = s.phase := rfl
@[simp] theorem takeFault_beX (code : Err) (s : State) : (takeFault code s).beX = s.beX := rfl
@[simp] theorem takeFault_beY (code : Err) (s : State) : (takeFault code s).beY = s.beY := rfl
@[simp] theorem takeFault_host (code : Err) (s : State) : (takeFault code s).host = s.host := rfl

@[simp] theorem compressChunk_h (s : State) : (compressChunk s).h = compress s.h s.chunk := rfl
@[simp] theorem compressChunk_chunk (s : State) : (compressChunk s).chunk = zeroChunk := rfl
@[simp] theorem compressChunk_total (s : State) : (compressChunk s).total = s.total := rfl
@[simp] theorem compressChunk_D (s : State) : (compressChunk s).D = s.D := rfl
@[simp] theorem compressChunk_digestValid (s : State) : (compressChunk s).digestValid = s.digestValid := rfl
@[simp] theorem compressChunk_err (s : State) : (compressChunk s).err = s.err := rfl
@[simp] theorem compressChunk_phase (s : State) : (compressChunk s).phase = s.phase := rfl
@[simp] theorem compressChunk_beX (s : State) : (compressChunk s).beX = s.beX := rfl
@[simp] theorem compressChunk_beY (s : State) : (compressChunk s).beY = s.beY := rfl
@[simp] theorem compressChunk_host (s : State) : (compressChunk s).host = s.host := rfl

@[simp] theorem snapshotDigest_h (s : State) : (snapshotDigest s).h = s.h := rfl
@[simp] theorem snapshotDigest_chunk (s : State) : (snapshotDigest s).chunk = s.chunk := rfl
@[simp] theorem snapshotDigest_total (s : State) : (snapshotDigest s).total = s.total := rfl
@[simp] theorem snapshotDigest_D (s : State) : (snapshotDigest s).D = s.h := rfl
@[simp] theorem snapshotDigest_digestValid (s : State) : (snapshotDigest s).digestValid = true := rfl
@[simp] theorem snapshotDigest_err (s : State) : (snapshotDigest s).err = s.err := rfl
@[simp] theorem snapshotDigest_phase (s : State) : (snapshotDigest s).phase = s.phase := rfl
@[simp] theorem snapshotDigest_beX (s : State) : (snapshotDigest s).beX = s.beX := rfl
@[simp] theorem snapshotDigest_beY (s : State) : (snapshotDigest s).beY = s.beY := rfl
@[simp] theorem snapshotDigest_host (s : State) : (snapshotDigest s).host = s.host := rfl

@[simp] theorem resetHash_h (s : State) : (resetHash s).h = IV := rfl
@[simp] theorem resetHash_chunk (s : State) : (resetHash s).chunk = zeroChunk := rfl
@[simp] theorem resetHash_total (s : State) : (resetHash s).total = 0 := rfl
@[simp] theorem resetHash_D (s : State) : (resetHash s).D = s.D := rfl
@[simp] theorem resetHash_digestValid (s : State) : (resetHash s).digestValid = s.digestValid := rfl
@[simp] theorem resetHash_err (s : State) : (resetHash s).err = s.err := rfl
@[simp] theorem resetHash_phase (s : State) : (resetHash s).phase = s.phase := rfl
@[simp] theorem resetHash_beX (s : State) : (resetHash s).beX = s.beX := rfl
@[simp] theorem resetHash_beY (s : State) : (resetHash s).beY = s.beY := rfl
@[simp] theorem resetHash_host (s : State) : (resetHash s).host = s.host := rfl

@[simp] theorem restoreHash_h (saved s : State) : (restoreHash saved s).h = saved.h := rfl
@[simp] theorem restoreHash_chunk (saved s : State) : (restoreHash saved s).chunk = saved.chunk := rfl
@[simp] theorem restoreHash_total (saved s : State) : (restoreHash saved s).total = saved.total := rfl
@[simp] theorem restoreHash_D (saved s : State) : (restoreHash saved s).D = s.D := rfl
@[simp] theorem restoreHash_digestValid (saved s : State) : (restoreHash saved s).digestValid = s.digestValid := rfl
@[simp] theorem restoreHash_err (saved s : State) : (restoreHash saved s).err = s.err := rfl
@[simp] theorem restoreHash_phase (saved s : State) : (restoreHash saved s).phase = s.phase := rfl
@[simp] theorem restoreHash_beX (saved s : State) : (restoreHash saved s).beX = s.beX := rfl
@[simp] theorem restoreHash_beY (saved s : State) : (restoreHash saved s).beY = s.beY := rfl
@[simp] theorem restoreHash_host (saved s : State) : (restoreHash saved s).host = s.host := rfl

@[simp] theorem presenting_h (s : State) (cs : List CmdWord) : (s.presenting cs).h = s.h := rfl
@[simp] theorem presenting_chunk (s : State) (cs : List CmdWord) : (s.presenting cs).chunk = s.chunk := rfl
@[simp] theorem presenting_total (s : State) (cs : List CmdWord) : (s.presenting cs).total = s.total := rfl
@[simp] theorem presenting_D (s : State) (cs : List CmdWord) : (s.presenting cs).D = s.D := rfl
@[simp] theorem presenting_digestValid (s : State) (cs : List CmdWord) : (s.presenting cs).digestValid = s.digestValid := rfl
@[simp] theorem presenting_err (s : State) (cs : List CmdWord) : (s.presenting cs).err = s.err := rfl
@[simp] theorem presenting_phase (s : State) (cs : List CmdWord) : (s.presenting cs).phase = s.phase := rfl
@[simp] theorem presenting_beX (s : State) (cs : List CmdWord) : (s.presenting cs).beX = s.beX := rfl
@[simp] theorem presenting_beY (s : State) (cs : List CmdWord) : (s.presenting cs).beY = s.beY := rfl
@[simp] theorem presenting_host (s : State) (cs : List CmdWord) : (s.presenting cs).host = cs.map .command := rfl

/-- The reset state is its own initialisation. -/
@[simp] theorem initialise_reset : initialise State.reset = State.reset := rfl

/-- Initialising forgets everything but what the outside presents and BitEngine's own signals. -/
theorem initialise_eq (s : State) :
    initialise s = { State.reset with beX := s.beX, beY := s.beY, host := s.host } := rfl

end Sys2Proof.Machine
end

