-- ==== Sys2Proof/Laws/Chunk.lean ====
section
/-! SUPPORT. The chunk buffer bit by bit: what a write changes, and that a buffer is its 512 bits. -/

namespace Sys2Proof.Machine

theorem writeWordBit_getLsbD (x : Word) (k i : Nat) (b : Bool) (hk : k < 32) (hi : i < 32) :
    (writeWordBit x k b).getLsbD i = if i = k then b else x.getLsbD i := by
  have h1 : (1#32 <<< k).getLsbD i = decide (i = k) := by
    rw [← BitVec.twoPow_eq, BitVec.getLsbD_twoPow]
    simp [hk, eq_comm]
  rw [writeWordBit, BitVec.getLsbD_or, BitVec.getLsbD_and, BitVec.getLsbD_not, h1]
  cases b with
  | false => by_cases h : i = k <;> simp [h, hi]
  | true =>
    rw [if_pos rfl, h1]
    by_cases h : i = k <;> simp [h, hi]

/-- Bits at two addresses lie in the same place iff the addresses are equal. -/
theorem wordIndex_bitIndex_inj {p q : Fin 512} (h1 : wordIndex p = wordIndex q) (h2 : bitIndex p = bitIndex q) :
    p = q := by
  have := congrArg Fin.val h1
  simp only [wordIndex, bitIndex] at this h2
  omega

theorem bitIndex_lt (p : Fin 512) : bitIndex p < 32 := by unfold bitIndex; omega

/-- `ChunkWriteBit` writes the addressed bit and leaves the other 511 (20_memory.md R52). -/
theorem chunkReadBit_chunkWriteBit (buf : Vector Word 16) (p q : Fin 512) (b : Bool) :
    chunkReadBit (chunkWriteBit buf p b) q = if q = p then b else chunkReadBit buf q := by
  unfold chunkReadBit chunkWriteBit
  rw [Vector.getElem_set]
  split
  · rename_i hw
    rw [writeWordBit_getLsbD _ _ _ _ (bitIndex_lt p) (bitIndex_lt q)]
    have hw' : wordIndex p = wordIndex q := Fin.ext hw
    by_cases hq : q = p
    · simp [hq]
    · have : bitIndex q ≠ bitIndex p := fun h => hq (wordIndex_bitIndex_inj hw'.symm h)
      simp [hq, this, hw]
  · rename_i hw
    have : q ≠ p := fun h => hw (by rw [h])
    simp [this]

@[simp] theorem chunkReadBit_chunkWriteBit_self (buf : Vector Word 16) (p : Fin 512) (b : Bool) :
    chunkReadBit (chunkWriteBit buf p b) p = b := by simp [chunkReadBit_chunkWriteBit]

theorem chunkReadBit_chunkWriteBit_ne (buf : Vector Word 16) {p q : Fin 512} (b : Bool) (h : q ≠ p) :
    chunkReadBit (chunkWriteBit buf p b) q = chunkReadBit buf q := by simp [chunkReadBit_chunkWriteBit, h]

@[simp] theorem chunkReadBit_zeroChunk (p : Fin 512) : chunkReadBit zeroChunk p = false := by
  simp [chunkReadBit, zeroChunk]

/-- The address of bit `k` of word `j`. -/
theorem chunkReadBit_at (buf : Vector Word 16) (j : Nat) (hj : j < 16) (k : Nat) (hk : k < 32) :
    buf[j].getLsbD k = chunkReadBit buf ⟨32 * j + (31 - k), by omega⟩ := by
  have h1 : (32 * j + (31 - k)) / 32 = j := by omega
  have h2 : 31 - (32 * j + (31 - k)) % 32 = k := by omega
  simp only [chunkReadBit, wordIndex, bitIndex, h1, h2]

/-- Two chunk buffers with the same 512 bits are equal. -/
theorem chunk_ext {a b : Vector Word 16} (h : ∀ p, chunkReadBit a p = chunkReadBit b p) : a = b := by
  refine Vector.ext fun j hj => BitVec.eq_of_getLsbD_eq fun k hk => ?_
  rw [chunkReadBit_at a j hj k hk, chunkReadBit_at b j hj k hk, h]

end Sys2Proof.Machine
end

