-- ==== Sys2Proof/Laws/Push.lean ====
section
/-! SUPPORT. What one `pushBit`, and a sequence of them, can do. -/

namespace Sys2Proof.Machine

theorem pos_val (s : State) : s.pos.val = s.total.toNat % 512 := rfl

/-- `pos` after one more bit (10_state.md R27), at every value of the 64-bit counter. -/
theorem add_one_toNat_mod (t : BitVec 64) : (t + 1).toNat % 512 = (t.toNat % 512 + 1) % 512 := by
  rw [BitVec.toNat_add]
  have : (1 : BitVec 64).toNat = 1 := rfl
  rw [this]
  omega

/-- `pushBit` below the boundary: one bit written, one bit counted (41_ingestion.md R120). -/
theorem pushBit_of_ne {b : Bool} {s : State} (h : s.pos.val ≠ 511) :
    pushBit b s = { s with chunk := chunkWriteBit s.chunk s.pos b, total := s.total + 1 } := by
  unfold pushBit
  rw [if_neg]
  show ¬ (s.total + 1).toNat % 512 = 0
  rw [add_one_toNat_mod]
  have := pos_val s
  have := s.pos.isLt
  omega

/-- `pushBit` of the 512th bit: the chunk is compressed and cleared (41_ingestion.md R120). -/
theorem pushBit_of_eq {b : Bool} {s : State} (h : s.pos.val = 511) :
    pushBit b s = { s with
      h := compress s.h (chunkWriteBit s.chunk s.pos b), chunk := zeroChunk, total := s.total + 1,
      phase := .collecting } := by
  unfold pushBit
  rw [if_pos]
  · rfl
  · show (s.total + 1).toNat % 512 = 0
    rw [add_one_toNat_mod]
    have := pos_val s
    omega

@[simp] theorem pushBit_total (b : Bool) (s : State) : (pushBit b s).total = s.total + 1 := by
  by_cases h : s.pos.val = 511
  · rw [pushBit_of_eq h]
  · rw [pushBit_of_ne h]

@[simp] theorem pushBit_D (b : Bool) (s : State) : (pushBit b s).D = s.D := by
  by_cases h : s.pos.val = 511
  · rw [pushBit_of_eq h]
  · rw [pushBit_of_ne h]

@[simp] theorem pushBit_digestValid (b : Bool) (s : State) : (pushBit b s).digestValid = s.digestValid := by
  by_cases h : s.pos.val = 511
  · rw [pushBit_of_eq h]
  · rw [pushBit_of_ne h]

@[simp] theorem pushBit_err (b : Bool) (s : State) : (pushBit b s).err = s.err := by
  by_cases h : s.pos.val = 511
  · rw [pushBit_of_eq h]
  · rw [pushBit_of_ne h]

@[simp] theorem pushBit_beX (b : Bool) (s : State) : (pushBit b s).beX = s.beX := by
  by_cases h : s.pos.val = 511
  · rw [pushBit_of_eq h]
  · rw [pushBit_of_ne h]

@[simp] theorem pushBit_beY (b : Bool) (s : State) : (pushBit b s).beY = s.beY := by
  by_cases h : s.pos.val = 511
  · rw [pushBit_of_eq h]
  · rw [pushBit_of_ne h]

@[simp] theorem pushBit_host (b : Bool) (s : State) : (pushBit b s).host = s.host := by
  by_cases h : s.pos.val = 511
  · rw [pushBit_of_eq h]
  · rw [pushBit_of_ne h]

/-- `phase` is back to collecting after a `pushBit` that began so (10_state.md R28). -/
theorem pushBit_phase {b : Bool} {s : State} (hs : s.phase = .collecting) : (pushBit b s).phase = .collecting := by
  by_cases h : s.pos.val = 511
  · rw [pushBit_of_eq h]
  · rw [pushBit_of_ne h]; exact hs

theorem pushBit_pos (b : Bool) (s : State) : (pushBit b s).pos.val = (s.pos.val + 1) % 512 := by
  rw [pos_val, pushBit_total, add_one_toNat_mod, ← pos_val]

@[simp] theorem pushSeq_nil (s : State) : pushSeq [] s = s := rfl

@[simp] theorem pushSeq_cons (b : Bool) (bs : List Bool) (s : State) :
    pushSeq (b :: bs) s = pushSeq bs (pushBit b s) := rfl

theorem pushSeq_append (as bs : List Bool) (s : State) : pushSeq (as ++ bs) s = pushSeq bs (pushSeq as s) :=
  List.foldl_append

/-- A repeated push is the push of a repeated bit (41_ingestion.md R121). -/
theorem pushRepeat_eq_pushSeq (b : Bool) (n : Nat) (s : State) :
    pushRepeat b n s = pushSeq (List.replicate n b) s := by
  induction n generalizing s with
  | zero => rfl
  | succ n ih => rw [pushRepeat, ih, List.replicate_succ, pushSeq_cons]

theorem pushSeq_total (bs : List Bool) (s : State) : (pushSeq bs s).total = s.total + BitVec.ofNat 64 bs.length := by
  induction bs generalizing s with
  | nil => simp
  | cons b bs ih =>
    rw [pushSeq_cons, ih, pushBit_total, List.length_cons, BitVec.add_assoc, Nat.add_comm bs.length 1,
      BitVec.ofNat_add]
    rfl

/-- The counter does not wrap below 2^64 (10_state.md R31). -/
theorem pushSeq_total_toNat {bs : List Bool} {s : State} (h : s.total.toNat + bs.length < 2 ^ 64) :
    (pushSeq bs s).total.toNat = s.total.toNat + bs.length := by
  rw [pushSeq_total, BitVec.toNat_add, BitVec.toNat_ofNat, Nat.add_mod_mod, Nat.mod_eq_of_lt h]

theorem pushSeq_pos (bs : List Bool) (s : State) : (pushSeq bs s).pos.val = (s.pos.val + bs.length) % 512 := by
  induction bs generalizing s with
  | nil => simp [Nat.mod_eq_of_lt s.pos.isLt]
  | cons b bs ih => rw [pushSeq_cons, ih, pushBit_pos, List.length_cons]; omega

@[simp] theorem pushSeq_D (bs : List Bool) (s : State) : (pushSeq bs s).D = s.D := by
  induction bs generalizing s with
  | nil => rfl
  | cons b bs ih => rw [pushSeq_cons, ih, pushBit_D]

@[simp] theorem pushSeq_digestValid (bs : List Bool) (s : State) : (pushSeq bs s).digestValid = s.digestValid := by
  induction bs generalizing s with
  | nil => rfl
  | cons b bs ih => rw [pushSeq_cons, ih, pushBit_digestValid]

@[simp] theorem pushSeq_err (bs : List Bool) (s : State) : (pushSeq bs s).err = s.err := by
  induction bs generalizing s with
  | nil => rfl
  | cons b bs ih => rw [pushSeq_cons, ih, pushBit_err]

@[simp] theorem pushSeq_beX (bs : List Bool) (s : State) : (pushSeq bs s).beX = s.beX := by
  induction bs generalizing s with
  | nil => rfl
  | cons b bs ih => rw [pushSeq_cons, ih, pushBit_beX]

@[simp] theorem pushSeq_beY (bs : List Bool) (s : State) : (pushSeq bs s).beY = s.beY := by
  induction bs generalizing s with
  | nil => rfl
  | cons b bs ih => rw [pushSeq_cons, ih, pushBit_beY]

@[simp] theorem pushSeq_host (bs : List Bool) (s : State) : (pushSeq bs s).host = s.host := by
  induction bs generalizing s with
  | nil => rfl
  | cons b bs ih => rw [pushSeq_cons, ih, pushBit_host]

theorem pushSeq_phase {bs : List Bool} {s : State} (hs : s.phase = .collecting) :
    (pushSeq bs s).phase = .collecting := by
  induction bs generalizing s with
  | nil => exact hs
  | cons b bs ih => exact ih (pushBit_phase hs)

/-- Pushes that stay below the boundary touch only `chunk` and `total`. -/
theorem pushSeq_within {bs : List Bool} {s : State} (h : s.pos.val + bs.length ≤ 511) :
    pushSeq bs s = { s with
      chunk := (pushSeq bs s).chunk, total := s.total + BitVec.ofNat 64 bs.length } := by
  induction bs generalizing s with
  | nil => simp
  | cons b bs ih =>
    have hne : s.pos.val ≠ 511 := by simp at h; omega
    have hp : (pushBit b s).pos.val = s.pos.val + 1 := by
      rw [pushBit_pos, Nat.mod_eq_of_lt]; simp at h; omega
    rw [← pushSeq_total, pushSeq_cons, ih (by simp at h; omega)]
    conv => lhs; rw [pushBit_of_ne hne]
    conv => rhs; rw [pushBit_of_ne hne]

/-- The bits below `pos` stay, the pushed bits follow, the rest stays, as long as the boundary is not passed. -/
theorem pushSeq_within_bit {bs : List Bool} {s : State} (h : s.pos.val + bs.length ≤ 511) (q : Fin 512) :
    chunkReadBit (pushSeq bs s).chunk q =
      if s.pos.val ≤ q.val ∧ q.val < s.pos.val + bs.length then bs.getD (q.val - s.pos.val) false
      else chunkReadBit s.chunk q := by
  induction bs generalizing s with
  | nil => simp; intros; omega
  | cons b bs ih =>
    simp only [List.length_cons] at h ⊢
    have hne : s.pos.val ≠ 511 := by omega
    have hp : (pushBit b s).pos.val = s.pos.val + 1 := by
      rw [pushBit_pos, Nat.mod_eq_of_lt]; omega
    have hc : (pushBit b s).chunk = chunkWriteBit s.chunk s.pos b := by rw [pushBit_of_ne hne]
    rw [pushSeq_cons, ih (by omega), hp, hc, chunkReadBit_chunkWriteBit]
    by_cases hq : q = s.pos
    · subst hq; simp
    · have hq' : q.val ≠ s.pos.val := fun e => hq (Fin.ext e)
      by_cases h1 : s.pos.val + 1 ≤ q.val ∧ q.val < s.pos.val + 1 + bs.length
      · have h2 : s.pos.val ≤ q.val ∧ q.val < s.pos.val + (bs.length + 1) := by omega
        have h3 : q.val - s.pos.val = (q.val - (s.pos.val + 1)) + 1 := by omega
        rw [if_pos h1, if_pos h2, h3, List.getD_cons_succ]
      · have h2 : ¬ (s.pos.val ≤ q.val ∧ q.val < s.pos.val + (bs.length + 1)) := by omega
        rw [if_neg h1, if_neg h2, if_neg hq]

theorem bitsDown_length (x : Word) (lo n : Nat) : (bitsDown x lo n).length = n := by
  induction n with
  | zero => rfl
  | succ n ih => simp [bitsDown, ih]

/-- Place `i` of a descending run of bits. -/
theorem bitsDown_getD (x : Word) (lo n i : Nat) (h : i < n) :
    (bitsDown x lo n).getD i false = x.getLsbD (lo + (n - 1 - i)) := by
  induction n generalizing i with
  | zero => omega
  | succ n ih =>
    cases i with
    | zero => simp [bitsDown]
    | succ i =>
      rw [bitsDown, List.getD_cons_succ, ih i (by omega)]
      congr 2
      omega

/-- A descending run of bits as a map over places. -/
theorem bitsDown_eq_map (x : Word) (lo n : Nat) :
    bitsDown x lo n = (List.range n).map fun i => x.getLsbD (lo + (n - 1 - i)) := by
  refine List.ext_getElem (by simp [bitsDown_length]) fun i h1 h2 => ?_
  rw [← List.getD_eq_getElem _ false h1, bitsDown_getD _ _ _ _ (by simpa using h2)]
  simp

/-- A run of bits is its upper part, then its lower part. -/
theorem bitsDown_add (x : Word) (lo m n : Nat) : bitsDown x lo (m + n) = bitsDown x (lo + m) n ++ bitsDown x lo m := by
  induction n with
  | zero => rfl
  | succ n ih => rw [← Nat.add_assoc, bitsDown, ih, bitsDown]; simp [Nat.add_assoc]

/-- Pushes that end exactly on the boundary: one compression, of the buffered bits with the pushed bits after them. -/
theorem pushSeq_fill {bs : List Bool} {s : State} (h : s.pos.val + bs.length = 512) :
    ∃ last, (pushSeq bs s).h = compress s.h last ∧ (pushSeq bs s).chunk = zeroChunk ∧
      ∀ q : Fin 512, chunkReadBit last q =
        if q.val < s.pos.val then chunkReadBit s.chunk q else bs.getD (q.val - s.pos.val) false := by
  have hlt := s.pos.isLt
  have hne : bs ≠ [] := by rintro rfl; simp at h; omega
  obtain ⟨as, b, rfl⟩ := (List.eq_nil_or_concat' bs).resolve_left hne
  simp at h
  have hw : s.pos.val + as.length ≤ 511 := by omega
  have hp : (pushSeq as s).pos.val = 511 := by rw [pushSeq_pos, Nat.mod_eq_of_lt] <;> omega
  have hh : (pushSeq as s).h = s.h := by rw [pushSeq_within hw]
  rw [pushSeq_append]
  refine ⟨chunkWriteBit (pushSeq as s).chunk (pushSeq as s).pos b, ?_, ?_, ?_⟩
  · rw [pushSeq_cons, pushSeq_nil, pushBit_of_eq hp, hh]
  · rw [pushSeq_cons, pushSeq_nil, pushBit_of_eq hp]
  · intro q
    have hq := q.isLt
    rw [chunkReadBit_chunkWriteBit, pushSeq_within_bit hw]
    by_cases h1 : q = (pushSeq as s).pos
    · have : q.val = 511 := by rw [h1, hp]
      rw [if_pos h1, if_neg (by omega), List.getD_append_right _ _ _ _ (by omega), this]
      rw [show 511 - s.pos.val - as.length = 0 by omega]; rfl
    · have : q.val ≠ 511 := fun e => h1 (Fin.ext (by rw [hp, e]))
      rw [if_neg h1]
      by_cases h2 : q.val < s.pos.val
      · rw [if_neg (by omega), if_pos h2]
      · rw [if_pos (by omega), if_neg h2, List.getD_append _ _ _ _ (by omega)]

/-- A push neither reads nor writes the digest register and its flag (41_ingestion.md R133). -/
theorem pushBit_setDigest (b : Bool) (s : State) (D : Vector Word 8) (v : Bool) :
    pushBit b { s with D := D, digestValid := v } = { pushBit b s with D := D, digestValid := v } := by
  by_cases h : s.pos.val = 511
  · rw [pushBit_of_eq h, pushBit_of_eq (s := { s with D := D, digestValid := v }) h]; rfl
  · rw [pushBit_of_ne h, pushBit_of_ne (s := { s with D := D, digestValid := v }) h]; rfl

theorem pushSeq_setDigest (bs : List Bool) (s : State) (D : Vector Word 8) (v : Bool) :
    pushSeq bs { s with D := D, digestValid := v } = { pushSeq bs s with D := D, digestValid := v } := by
  induction bs generalizing s with
  | nil => rfl
  | cons b bs ih => rw [pushSeq_cons, pushBit_setDigest, ih, pushSeq_cons]

end Sys2Proof.Machine
end

