-- ==== Sys2Proof/Laws/Message.lean ====
section
/-! SUPPORT. Pushed bits as a message: the chunk buffer holds the bits since the last boundary, and `h` the hash of
the full chunks (42_finalization.md R158). -/

namespace Sys2Proof.Machine

theorem bitsValue_concat (bs : List Bool) (b : Bool) : bitsValue (bs ++ [b]) = 2 * bitsValue bs + b.toNat := by
  simp [bitsValue]

/-- Bit `i` of the number is bit `i` of the string counted from its end. -/
theorem bitsValue_testBit (bs : List Bool) (i : Nat) (h : i < bs.length) :
    (bitsValue bs).testBit i = bs.getD (bs.length - 1 - i) false := by
  induction bs using List.reverseRecOn generalizing i with
  | nil => simp at h
  | append_singleton bs b ih =>
    rw [bitsValue_concat]
    simp only [List.length_append, List.length_cons, List.length_nil] at h ⊢
    cases i with
    | zero =>
      have : bs.length + (0 + 1) - 1 - 0 = bs.length := by omega
      rw [this, List.getD_append_right _ _ _ _ (Nat.le_refl _)]
      cases b <;> simp [Nat.testBit_zero]
    | succ i =>
      have h1 : (2 * bitsValue bs + b.toNat) / 2 = bitsValue bs := by cases b <;> (simp; try omega)
      have h2 : bs.length + (0 + 1) - 1 - (i + 1) = bs.length - 1 - i := by omega
      rw [Nat.testBit_succ, h1, ih i (by omega), h2, List.getD_append _ _ _ _ (by omega)]

/-- `chunkOf` puts bit `p` of the string at bit address `p`, and 0 beyond its end. -/
@[simp] theorem chunkReadBit_chunkOf (m : List Bool) (p : Fin 512) :
    chunkReadBit (chunkOf m) p = m.getD p.val false := by
  have hk := bitIndex_lt p
  simp only [chunkReadBit, chunkOf, Vector.getElem_ofFn, BitVec.getLsbD_ofNat]
  rw [bitsValue_testBit _ _ (by simpa using hk)]
  have h1 : 32 - 1 - bitIndex p < 32 := by omega
  have h2 : 32 * (wordIndex p).val + (32 - 1 - bitIndex p) = p.val := by
    unfold wordIndex bitIndex; simp only; omega
  simp [hk, List.getD_eq_getElem?_getD, h1, h2]

theorem chunkOf_nil : chunkOf [] = zeroChunk := chunk_ext fun p => by simp

/-- Only the first 512 bits matter. -/
theorem chunkOf_append {m x : List Bool} (h : 512 ≤ m.length) : chunkOf (m ++ x) = chunkOf m :=
  chunk_ext fun p => by
    rw [chunkReadBit_chunkOf, chunkReadBit_chunkOf, List.getD_append _ _ _ _ (by omega)]

theorem chunkWriteBit_chunkOf (m : List Bool) (b : Bool) (p : Fin 512) (h : p.val = m.length) :
    chunkWriteBit (chunkOf m) p b = chunkOf (m ++ [b]) :=
  chunk_ext fun q => by
    rw [chunkReadBit_chunkWriteBit, chunkReadBit_chunkOf, chunkReadBit_chunkOf]
    by_cases hq : q = p
    · subst hq; rw [if_pos rfl, List.getD_append_right _ _ _ _ (by omega), h]; simp
    · have : q.val ≠ p.val := fun e => hq (Fin.ext e)
      rw [if_neg hq]
      rcases Nat.lt_or_ge q.val m.length with hl | hl
      · rw [List.getD_append _ _ _ _ hl]
      · rw [List.getD_eq_default _ _ hl, List.getD_eq_default]; simp; omega

theorem hashChunks_append (h0 : Vector Word 8) (m x : List Bool) (t : Nat) (h : 512 * t ≤ m.length) :
    hashChunks h0 (m ++ x) t = hashChunks h0 m t := by
  induction t with
  | zero => rfl
  | succ t ih =>
    rw [hashChunks, hashChunks, ih (by omega), List.drop_append_of_le_length (by simp [Config.chunkBits]; omega),
      chunkOf_append]
    simp [Config.chunkBits]; omega

/-- The engine has been fed the bits `m` on a running hash `h0`: the full chunks of `m` are compressed into `h`, the
rest stands in the buffer, and `pos` is where the next bit goes. -/
structure Fed (h0 : Vector Word 8) (m : List Bool) (s : State) : Prop where
  hashed : s.h = hashChunks h0 m (m.length / 512)
  buffered : s.chunk = chunkOf (m.drop (512 * (m.length / 512)))
  placed : s.pos.val = m.length % 512

theorem Fed.pushBit {h0 : Vector Word 8} {m : List Bool} {s : State} (b : Bool) (f : Fed h0 m s) :
    Fed h0 (m ++ [b]) (pushBit b s) := by
  obtain ⟨hh, hc, hp⟩ := f
  have hpos := pushBit_pos b s
  have hdrop : (m.drop (512 * (m.length / 512))).length = m.length % 512 := by simp; omega
  have hbuf : chunkWriteBit s.chunk s.pos b = chunkOf (m.drop (512 * (m.length / 512)) ++ [b]) := by
    rw [hc]; exact chunkWriteBit_chunkOf _ _ _ (by rw [hdrop, hp])
  have happ : (m ++ [b]).drop (512 * (m.length / 512)) = m.drop (512 * (m.length / 512)) ++ [b] :=
    List.drop_append_of_le_length (by omega)
  by_cases h : s.pos.val = 511
  · have hq : (m ++ [b]).length / 512 = m.length / 512 + 1 := by simp; omega
    refine ⟨?_, ?_, ?_⟩
    · rw [hq, hashChunks, hashChunks_append _ _ _ _ (by omega), pushBit_of_eq h, hh, hbuf]
      show _ = compress _ (chunkOf ((m ++ [b]).drop (512 * (m.length / 512))))
      rw [happ]
    · have : 512 * ((m ++ [b]).length / 512) = (m ++ [b]).length := by rw [hq]; simp; omega
      rw [this, List.drop_length, chunkOf_nil, pushBit_of_eq h]
    · rw [hpos, hp]; simp
  · have hq : (m ++ [b]).length / 512 = m.length / 512 := by simp; omega
    refine ⟨?_, ?_, ?_⟩
    · rw [hq, hashChunks_append _ _ _ _ (by omega), pushBit_of_ne h, hh]
    · rw [hq, happ, pushBit_of_ne h, hbuf]
    · rw [hpos, hp]; simp

theorem Fed.pushSeq {h0 : Vector Word 8} {m : List Bool} {s : State} (bs : List Bool) (f : Fed h0 m s) :
    Fed h0 (m ++ bs) (pushSeq bs s) := by
  induction bs generalizing m s with
  | nil => simpa using f
  | cons b bs ih =>
    have := ih (f.pushBit b)
    rwa [List.append_assoc, List.singleton_append] at this

/-- A buffer with zeros from `pos` on holds exactly its buffered bits. -/
theorem Fed.of_tailZero {s : State} (h : ∀ p : Fin 512, s.pos ≤ p → chunkReadBit s.chunk p = false) :
    Fed s.h s.bufferedBits s := by
  have hl : s.bufferedBits.length = s.pos.val := by simp [State.bufferedBits]
  have hlt := s.pos.isLt
  have hq : s.bufferedBits.length / 512 = 0 := by omega
  refine ⟨by rw [hq]; rfl, ?_, by omega⟩
  rw [hq, Nat.mul_zero, List.drop_zero]
  refine chunk_ext fun p => ?_
  rw [chunkReadBit_chunkOf]
  rcases Nat.lt_or_ge p.val s.pos.val with hp | hp
  · rw [List.getD_eq_getElem _ _ (by omega)]
    simp [State.bufferedBits]
  · rw [List.getD_eq_default _ _ (by omega)]
    exact h p hp

theorem State.Carries.fed {s : State} {m : List Bool} (hc : s.Carries m) : Fed IV m s :=
  ⟨hc.hashed, hc.buffered, by rw [pos_val, hc.counted]⟩

theorem Fed.carries {s : State} {m : List Bool} (f : Fed IV m s) (hm : m.length < 2 ^ 32)
    (ht : s.total.toNat = m.length) : s.Carries m := ⟨hm, ht, f.hashed, f.buffered⟩

/-- Pushing bits appends them to the message, as long as it stays supported. -/
theorem State.Carries.pushSeq {s : State} {m bs : List Bool} (hc : s.Carries m) (h : m.length + bs.length < 2 ^ 32) :
    (pushSeq bs s).Carries (m ++ bs) :=
  (hc.fed.pushSeq bs).carries (by simpa using h) (by
    rw [pushSeq_total_toNat (by rw [hc.counted]; omega), hc.counted, List.length_append])

/-- A state with the initial hash, an empty count and a cleared buffer carries the empty message. -/
theorem carries_nil {s : State} (hh : s.h = IV) (ht : s.total = 0) (hc : s.chunk = zeroChunk) : s.Carries [] :=
  ⟨by simp [Config.maxMsgBits], by simp [ht], hh, by simpa [chunkOf_nil] using hc⟩

/-- `K` as the model computes it, literally as 42_finalization.md R151 states it. -/
theorem padZeros_eq (L : Nat) : padZeros L = ((447 - (L : Int)) % 512).toNat := by unfold padZeros; omega

theorem lengthBits_eq (L : BitVec 64) :
    bitsDown (L.extractLsb' 32 32) 0 32 ++ bitsDown (L.extractLsb' 0 32) 0 32 = lengthBits L.toNat := by
  refine List.ext_getElem (by simp [bitsDown_length, lengthBits]) fun i h1 h2 => ?_
  have hi : i < 64 := by simpa [lengthBits] using h2
  rw [← List.getD_eq_getElem _ false h1]
  have hr : (lengthBits L.toNat)[i] = L.getLsbD (63 - i) := by simp [lengthBits, BitVec.getLsbD]
  refine Eq.trans ?_ hr.symm
  rcases Nat.lt_or_ge i 32 with h | h
  · rw [List.getD_append _ _ _ _ (by rw [bitsDown_length]; exact h), bitsDown_getD _ _ _ _ h,
      BitVec.getLsbD_extractLsb']
    have : 32 + (0 + (32 - 1 - i)) = 63 - i := by omega
    simp only [this]
    simp; intro; omega
  · rw [List.getD_append_right _ _ _ _ (by rw [bitsDown_length]; exact h), bitsDown_length,
      bitsDown_getD _ _ _ _ (by omega), BitVec.getLsbD_extractLsb']
    have : 0 + (0 + (32 - 1 - (i - 32))) = 63 - i := by omega
    simp only [this]
    simp; intro; omega

/-- The bits `HASH` appends, as one push. -/
def paddingBits (L : BitVec 64) : List Bool :=
  true :: (List.replicate (padZeros L.toNat) false ++ lengthBits L.toNat)

theorem appendPadding_eq (s : State) : appendPadding s = pushSeq (paddingBits s.total) s := by
  simp only [appendPadding, paddingBits]
  rw [pushRepeat_eq_pushSeq, pushSeq_cons, ← lengthBits_eq, pushSeq_append, pushSeq_append]

theorem padMessage_eq {s : State} {m : List Bool} (ht : s.total.toNat = m.length) :
    padMessage m = m ++ paddingBits s.total := by
  rw [padMessage, paddingBits, padZeros_eq, ht]

/-- The padded message is a whole number of chunks (42_finalization.md R151). -/
theorem paddingBits_length (L : BitVec 64) : (paddingBits L).length = padZeros L.toNat + 65 := by
  simp [paddingBits, lengthBits]

/-- The heart of 42_finalization.md R158: after the padding pushes `h` is the digest of the message. -/
theorem appendPadding_h {s : State} {m : List Bool} (hc : s.Carries m) : (appendPadding s).h = sha256 m := by
  rw [appendPadding_eq, (hc.fed.pushSeq _).hashed, sha256, padMessage_eq hc.counted]
  rfl

theorem lengthBits_getD (L : BitVec 64) (i : Nat) (hi : i < 64) :
    (lengthBits L.toNat).getD i false = L.getLsbD (63 - i) := by
  simp [lengthBits, hi, BitVec.getLsbD, List.getD_eq_getElem?_getD]

/-- The padding bit by bit: a 1, the zeros, the length from its most significant bit (42_finalization.md R150, R152). -/
theorem paddingBits_getD (L : BitVec 64) (i : Nat) (hi : i < padZeros L.toNat + 65) :
    (paddingBits L).getD i false =
      if i = 0 then true else if i < 1 + padZeros L.toNat then false else L.getLsbD (padZeros L.toNat + 64 - i) := by
  unfold paddingBits
  cases i with
  | zero => simp
  | succ i =>
    rw [if_neg (by omega), List.getD_cons_succ]
    by_cases h : i < padZeros L.toNat
    · rw [if_pos (by omega), List.getD_append _ _ _ _ (by simpa using h)]; simp [h]
    · rw [if_neg (by omega), List.getD_append_right _ _ _ _ (by simpa using h), List.length_replicate,
        lengthBits_getD _ _ (by omega)]
      congr 1; omega

/-- Bit `i` of the number a list of words makes, the first word most significant. -/
theorem foldWords_testBit (ws : List Word) (a i : Nat) :
    (ws.foldl (fun a w => a * 2 ^ 32 + w.toNat) a).testBit i =
      if i < 32 * ws.length then (ws.getD (ws.length - 1 - i / 32) 0).getLsbD (i % 32)
      else a.testBit (i - 32 * ws.length) := by
  induction ws using List.reverseRecOn generalizing a i with
  | nil => simp
  | append_singleton ws w ih =>
    rw [List.foldl_append, List.foldl_cons, List.foldl_nil, Nat.mul_comm, Nat.testBit_two_pow_mul_add _ w.isLt]
    simp only [List.length_append, List.length_cons, List.length_nil]
    by_cases h : i < 32
    · have h1 : i / 32 = 0 := by omega
      have h2 : i % 32 = i := by omega
      have h3 : i < 32 * (ws.length + (0 + 1)) := by omega
      rw [if_pos h, if_pos h3, h1, h2]
      have : ws.length + (0 + 1) - 1 - 0 = ws.length := by omega
      rw [this, List.getD_append_right _ _ _ _ (Nat.le_refl _)]; simp [BitVec.getLsbD]
    · rw [if_neg h, ih]
      by_cases h3 : i < 32 * (ws.length + (0 + 1))
      · rw [if_pos h3, if_pos (by omega)]
        have h4 : ws.length + (0 + 1) - 1 - i / 32 = ws.length - 1 - (i - 32) / 32 := by omega
        have h5 : (i - 32) % 32 = i % 32 := by omega
        rw [h4, h5, List.getD_append _ _ _ _ (by omega)]
      · rw [if_neg h3, if_neg (by omega)]
        congr 1; omega

/-- Bit address `p` of the buffer is bit `511 - p` of its number (20_memory.md R51). -/
theorem chunkNumber_testBit_eq (buf : Vector Word 16) (p : Fin 512) :
    (chunkNumber buf).testBit (511 - p.val) = chunkReadBit buf p := by
  have hp := p.isLt
  rw [chunkNumber, foldWords_testBit]
  simp only [Vector.length_toList]
  rw [if_pos (by omega)]
  have h1 : 16 - 1 - (511 - p.val) / 32 = p.val / 32 := by omega
  have h2 : (511 - p.val) % 32 = 31 - p.val % 32 := by omega
  rw [h1, h2, chunkReadBit]
  simp only [wordIndex, bitIndex]
  congr 1
  rw [List.getD_eq_getElem _ _ (by simp; omega)]
  simp

/-- The reset engine has taken the empty message. -/
theorem initialise_carries (s : State) : (initialise s).Carries [] := carries_nil rfl rfl rfl

/-- Pushing supported bits keeps the invariant between commands. -/
theorem State.Inv.pushSeq {s : State} {bits : List Bool} (h : s.Inv) (hl : s.total.toNat + bits.length < 2 ^ 32) :
    (pushSeq bits s).Inv := by
  have f := (Fed.of_tailZero h.tailZero).pushSeq bits
  have ht : (Machine.pushSeq bits s).total.toNat = s.total.toNat + bits.length := pushSeq_total_toNat (by omega)
  refine ⟨pushSeq_phase h.collecting, by rw [ht]; exact hl, ?_, ?_, ?_⟩
  · intro p hp
    rw [f.buffered, chunkReadBit_chunkOf, List.getD_eq_default]
    have := f.placed
    have hp' : (Machine.pushSeq bits s).pos.val ≤ p.val := hp
    rw [List.length_drop]; omega
  · intro h5
    have h5' : s.total.toNat + bits.length < 512 := by rw [← ht]; exact h5
    have hpos : s.pos.val + bits.length ≤ 511 := by rw [pos_val]; omega
    rw [pushSeq_within hpos]
    exact h.freshHash (by show _ < 512; omega)
  · simp; exact h.noDigest

end Sys2Proof.Machine
end

