-- ==== Sys2Proof/Laws/Exec.lean ====
section
/-! SUPPORT. What executing one instruction can do, said once. -/

namespace Sys2Proof.Machine

theorem whenOperational_of_noFault {act : State → State} {s : State} (h : s.err = .noFault) :
    whenOperational act s = act s := if_pos h

/-- In the fault state a command is ignored (60_exceptions.md R215). -/
theorem whenOperational_of_fault {act : State → State} {s : State} (h : s.err ≠ .noFault) :
    whenOperational act s = s := if_neg h

/-- Everything `ingest` can do: ignore, fault on the range, fault on the length, push. -/
theorem ingest_cases (inRange : Bool) (n : Nat) (push : State → State) (s : State) :
    (s.err ≠ .noFault ∧ ingest inRange n push s = s) ∨
    (s.err = .noFault ∧ inRange = false ∧ ingest inRange n push s = takeFault .errRange s) ∨
    (s.err = .noFault ∧ inRange = true ∧ 2 ^ 32 ≤ s.total.toNat + n ∧
      ingest inRange n push s = takeFault .errLength s) ∨
    (s.err = .noFault ∧ inRange = true ∧ s.total.toNat + n < 2 ^ 32 ∧ ingest inRange n push s = push s) := by
  unfold ingest
  by_cases he : s.err = .noFault
  · rw [whenOperational_of_noFault he]
    cases inRange with
    | false => exact .inr (.inl ⟨he, rfl, rfl⟩)
    | true =>
      rcases Nat.lt_or_ge (s.total.toNat + n) (2 ^ 32) with h | h
      · refine .inr (.inr (.inr ⟨he, rfl, h, ?_⟩))
        rw [if_neg (by simp), if_neg (by simpa [Config.maxMsgBits] using h)]
      · refine .inr (.inr (.inl ⟨he, rfl, h, ?_⟩))
        rw [if_neg (by simp), if_pos (by simpa [Config.maxMsgBits] using h)]
  · exact .inl ⟨he, whenOperational_of_fault he⟩

theorem ingest_push {n : Nat} {push : State → State} {s : State} (he : s.err = .noFault)
    (h : s.total.toNat + n < 2 ^ 32) : ingest true n push s = push s := by
  rcases ingest_cases true n push s with ⟨h1, _⟩ | ⟨_, h1, _⟩ | ⟨_, _, h1, _⟩ | ⟨_, _, _, h1⟩
  · exact absurd he h1
  · cases h1
  · omega
  · exact h1

theorem ingest_range {n : Nat} {push : State → State} {s : State} (he : s.err = .noFault) :
    ingest false n push s = takeFault .errRange s := by
  rw [ingest, whenOperational_of_noFault he, if_pos rfl]

theorem ingest_length {n : Nat} {push : State → State} {s : State} (he : s.err = .noFault)
    (h : 2 ^ 32 ≤ s.total.toNat + n) : ingest true n push s = takeFault .errLength s := by
  rcases ingest_cases true n push s with ⟨h1, _⟩ | ⟨_, h1, _⟩ | ⟨_, _, _, h1⟩ | ⟨_, _, h1, _⟩
  · exact absurd he h1
  · cases h1
  · exact h1
  · omega

theorem ingest_ignored {inRange : Bool} {n : Nat} {push : State → State} {s : State} (he : s.err ≠ .noFault) :
    ingest inRange n push s = s := whenOperational_of_fault he

/-- The six ingestion commands are one operation: their contract range, their bits, pushed in order
(41_ingestion.md R121, 30_encoding.md R75). -/
theorem exec_ingestion {i : Instr} {bits : List Bool} (h : pushedBits i = some bits) (s : State) :
    exec i s = .next (ingest i.wellFormed bits.length (pushSeq bits) s) := by
  cases i with
  | init => cases h
  | pushBit data => cases h; rfl
  | pushBits bit count =>
    cases h
    have : pushRepeat (bit.getLsbD 0) count.toNat = pushSeq (List.replicate count.toNat (bit.getLsbD 0)) :=
      funext fun s => pushRepeat_eq_pushSeq _ _ s
    rw [exec, execPushBits, this, List.length_replicate]; rfl
  | pushValLo width value => cases h; rw [exec, execPushValLo, lowBits, bitsDown_length]; rfl
  | pushValHi width value => cases h; rw [exec, execPushValHi, highBits, bitsDown_length]; rfl
  | pushByte value => cases h; rw [exec, execPushByte, lowBits, bitsDown_length]; rfl
  | pushWord value => cases h; rw [exec, execPushWord, lowBits, bitsDown_length]; rfl
  | hash preserve => cases h
  | rotr n => cases h
  | shr n => cases h

theorem exec_init (s : State) : exec .init s = .next (initialise s) := rfl

theorem exec_hash (p : Bool) (s : State) : exec (.hash p) s = .next (whenOperational (hashEffect p) s) := rfl

theorem exec_rotr (n : Fin 32) (s : State) : exec (.rotr n) s = .next { s with beY := rotr s.beX n } := rfl

theorem exec_shr (n : Fin 32) (s : State) : exec (.shr n) s = .next { s with beY := shr s.beX n } := rfl

theorem appendPadding_pos (s : State) : (appendPadding s).pos.val = 0 := by
  rw [appendPadding_eq, pushSeq_pos, paddingBits_length, pos_val, padZeros]
  omega

/-- A push that passes the boundary ends collecting, whatever the phase was. -/
theorem pushSeq_phase_of_boundary {bs : List Bool} {s : State} (h : 512 ≤ s.pos.val + bs.length) :
    (pushSeq bs s).phase = .collecting := by
  induction bs generalizing s with
  | nil => have := s.pos.isLt; simp at h; omega
  | cons b bs ih =>
    rw [pushSeq_cons]
    by_cases hp : s.pos.val = 511
    · exact pushSeq_phase (by rw [pushBit_of_eq hp])
    · refine ih ?_
      have := s.pos.isLt
      rw [pushBit_pos, Nat.mod_eq_of_lt (by omega)]
      simp at h; omega

theorem appendPadding_phase (s : State) : (appendPadding s).phase = .collecting := by
  rw [appendPadding_eq]
  refine pushSeq_phase_of_boundary ?_
  rw [paddingBits_length, pos_val, padZeros]
  omega

/-- Padding changes nothing but `h`, `chunk`, `total` and `phase`. -/
theorem appendPadding_frame (s : State) :
    (appendPadding s).D = s.D ∧ (appendPadding s).digestValid = s.digestValid ∧ (appendPadding s).err = s.err ∧
    (appendPadding s).beX = s.beX ∧ (appendPadding s).beY = s.beY ∧ (appendPadding s).host = s.host := by
  rw [appendPadding_eq]; simp

/-- A destructive `HASH`, whole (42_finalization.md R155). -/
theorem hashEffect_false (s : State) :
    hashEffect false s = { s with
      h := IV, chunk := zeroChunk, total := 0, D := (appendPadding s).h, digestValid := true,
      phase := .collecting } := by
  obtain ⟨-, -, he, hx, hy, hh⟩ := appendPadding_frame s
  simp only [hashEffect, resetHash, snapshotDigest, he, hx, hy, hh, appendPadding_phase]
  simp

/-- A peek, whole (42_finalization.md R156). -/
theorem hashEffect_true (s : State) :
    hashEffect true s = { s with D := (appendPadding s).h, digestValid := true, phase := .collecting } := by
  obtain ⟨-, -, he, hx, hy, hh⟩ := appendPadding_frame s
  simp only [hashEffect, restoreHash, snapshotDigest, he, hx, hy, hh, appendPadding_phase]
  simp

/-- The digest either form of `HASH` writes (42_finalization.md R150). -/
@[simp] theorem hashEffect_D (p : Bool) (s : State) : (hashEffect p s).D = (appendPadding s).h := by
  cases p <;> simp [hashEffect]

@[simp] theorem hashEffect_digestValid (p : Bool) (s : State) : (hashEffect p s).digestValid = true := by
  cases p <;> simp [hashEffect]

@[simp] theorem hashEffect_err (p : Bool) (s : State) : (hashEffect p s).err = s.err := by
  cases p <;> simp [hashEffect, (appendPadding_frame s).2.2.1]

@[simp] theorem hashEffect_host (p : Bool) (s : State) : (hashEffect p s).host = s.host := by
  cases p <;> simp [hashEffect, (appendPadding_frame s).2.2.2.2.2]

@[simp] theorem hashEffect_phase (p : Bool) (s : State) : (hashEffect p s).phase = .collecting := by
  cases p <;> simp [hashEffect, appendPadding_phase]

/-- On an engine that carries `m`, either form of `HASH` writes the digest of `m` (42_finalization.md R158). -/
theorem hashEffect_digest {s : State} {m : List Bool} (p : Bool) (hc : s.Carries m) : (hashEffect p s).D = sha256 m := by
  rw [hashEffect_D, appendPadding_h hc]

/-- Every instruction completes (70_reset_and_hazards.md R253). -/
theorem exec_next (i : Instr) (s : State) : ∃ t, exec i s = .next t := by
  cases i <;> exact ⟨_, rfl⟩

theorem acceptCommand_next (w : CmdWord) (s : State) : ∃ t, acceptCommand w s = .next t := by
  unfold acceptCommand
  split
  · exact exec_next _ _
  · exact ⟨_, rfl⟩

theorem takeEvent_next (e : PortEvent) (s : State) : ∃ t, takeEvent e s = .next t := by
  cases e with
  | reset => exact ⟨_, rfl⟩
  | command w =>
    simp only [takeEvent]
    split
    · exact acceptCommand_next _ _
    · exact ⟨_, rfl⟩
  | bitEngine ctl x => exact exec_next _ _

theorem next_inj {s t : State} : (Host.Outcome.next s : Host.Outcome State Fault Refusal) = .next t ↔ s = t :=
  ⟨fun h => by cases h; rfl, fun h => by rw [h]⟩

/-- Everything an ingestion command can do. -/
theorem exec_ingestion_cases {i : Instr} {bits : List Bool} (hb : pushedBits i = some bits) (s : State) :
    ∃ t, exec i s = .next t ∧
      ((s.err ≠ .noFault ∧ t = s) ∨
       (s.err = .noFault ∧ i.wellFormed = false ∧ t = { s with err := .errRange }) ∨
       (s.err = .noFault ∧ i.wellFormed = true ∧ 2 ^ 32 ≤ s.total.toNat + bits.length ∧
         t = { s with err := .errLength }) ∨
       (s.err = .noFault ∧ i.wellFormed = true ∧ s.total.toNat + bits.length < 2 ^ 32 ∧ t = pushSeq bits s)) :=
  ⟨_, exec_ingestion hb s, ingest_cases i.wellFormed bits.length (pushSeq bits) s⟩

/-- An ingestion command that completes is its pushes. -/
theorem exec_push {i : Instr} {bits : List Bool} {s : State} (hb : pushedBits i = some bits)
    (hw : i.wellFormed = true) (he : s.err = .noFault) (hl : s.total.toNat + bits.length < 2 ^ 32) :
    exec i s = .next (pushSeq bits s) := by
  rw [exec_ingestion hb, hw, ingest_push he hl]

theorem exec_hash_operational {p : Bool} {s : State} (he : s.err = .noFault) :
    exec (.hash p) s = .next (hashEffect p s) := by
  rw [exec_hash, whenOperational_of_noFault he]

/-- The four shapes of an instruction: `INIT`, an ingestion command, `HASH`, BitEngine. -/
theorem instr_cases (i : Instr) :
    i = .init ∨ (∃ bits, pushedBits i = some bits) ∨ (∃ p, i = .hash p) ∨ ∃ n, i = .rotr n ∨ i = .shr n := by
  cases i with
  | init => exact .inl rfl
  | hash p => exact .inr (.inr (.inl ⟨p, rfl⟩))
  | rotr n => exact .inr (.inr (.inr ⟨n, .inl rfl⟩))
  | shr n => exact .inr (.inr (.inr ⟨n, .inr rfl⟩))
  | _ => exact .inr (.inl ⟨_, rfl⟩)

/-- The digest a `HASH` computes does not depend on the digest register (42_finalization.md R150). -/
theorem hashEffect_setDigest (p : Bool) (s : State) (D : Vector Word 8) (v : Bool) :
    hashEffect p { s with D := D, digestValid := v } = hashEffect p s := by
  have hpad : (appendPadding { s with D := D, digestValid := v }).h = (appendPadding s).h := by
    rw [appendPadding_eq, pushSeq_setDigest, appendPadding_eq]
  cases p
  · rw [hashEffect_false, hashEffect_false, hpad]
  · rw [hashEffect_true, hashEffect_true, hpad]

theorem ingest_setDigest (r : Bool) (n : Nat) (bs : List Bool) (s : State) (D : Vector Word 8) (v : Bool) :
    ingest r n (pushSeq bs) { s with D := D, digestValid := v } =
      { ingest r n (pushSeq bs) s with D := D, digestValid := v } := by
  unfold ingest whenOperational
  simp only [pushSeq_setDigest, takeFault]
  split
  · split
    · rfl
    · split <;> rfl
  · rfl

/-- No instruction touches what the outside presents, and each ends collecting if it began so. -/
theorem exec_host_phase {i : Instr} {s t : State} (h : exec i s = .next t) :
    t.host = s.host ∧ (s.phase = .collecting → t.phase = .collecting) := by
  rcases instr_cases i with rfl | ⟨bits, hb⟩ | ⟨p, rfl⟩ | ⟨n, rfl | rfl⟩
  · cases h; exact ⟨rfl, fun _ => rfl⟩
  · obtain ⟨t', ht', c⟩ := exec_ingestion_cases hb s
    rw [ht', next_inj] at h; subst h
    rcases c with ⟨_, rfl⟩ | ⟨_, _, rfl⟩ | ⟨_, _, _, rfl⟩ | ⟨_, _, _, rfl⟩
    · exact ⟨rfl, id⟩
    · exact ⟨rfl, id⟩
    · exact ⟨rfl, id⟩
    · exact ⟨pushSeq_host _ _, pushSeq_phase⟩
  · rw [exec_hash, next_inj] at h; subst h
    by_cases he : s.err = .noFault
    · rw [whenOperational_of_noFault he]; simp
    · rw [whenOperational_of_fault he]; exact ⟨rfl, id⟩
  · cases h; exact ⟨rfl, id⟩
  · cases h; exact ⟨rfl, id⟩

end Sys2Proof.Machine
end

