-- ==== Sys2Proof/Laws/Accept.lean ====
section
/-! SUPPORT. What accepting a word, a burst and a step of the machine can do, said once. -/

namespace Sys2Proof.Machine

theorem acceptCommand_of_ok {w : CmdWord} {i : Instr} (h : decodeCommand w = .ok i) (s : State) :
    acceptCommand w s = exec i s := by simp [acceptCommand, decode, h]

theorem acceptCommand_of_error {w : CmdWord} {r : Reject} (h : decodeCommand w = .error r) (s : State) :
    acceptCommand w s = .next (acceptIllegal s) := by simp [acceptCommand, decode, h]

/-- Everything accepting a word can do: run the instruction, or treat the word as illegal. -/
theorem acceptCommand_cases (w : CmdWord) (s : State) :
    (∃ i, decodeCommand w = .ok i ∧ acceptCommand w s = exec i s) ∨
    (∃ r, decodeCommand w = .error r ∧ acceptCommand w s = .next (acceptIllegal s)) := by
  cases h : decodeCommand w with
  | ok i => exact .inl ⟨i, rfl, acceptCommand_of_ok h s⟩
  | error r => exact .inr ⟨r, rfl, acceptCommand_of_error h s⟩

/-- Everything an illegal word can do. -/
theorem acceptIllegal_cases (s : State) :
    (s.err = .noFault ∧ acceptIllegal s = { s with err := .errIllegal }) ∨
    (s.err ≠ .noFault ∧ acceptIllegal s = s) := by
  by_cases he : s.err = .noFault
  · exact .inl ⟨he, whenOperational_of_noFault he⟩
  · exact .inr ⟨he, whenOperational_of_fault he⟩

theorem acceptCommand_host_phase {w : CmdWord} {s t : State} (h : acceptCommand w s = .next t) :
    t.host = s.host ∧ (s.phase = .collecting → t.phase = .collecting) := by
  rcases acceptCommand_cases w s with ⟨i, _, e⟩ | ⟨r, _, e⟩
  · exact exec_host_phase (e ▸ h)
  · rw [e, next_inj] at h; subst h
    rcases acceptIllegal_cases s with ⟨_, e⟩ | ⟨_, e⟩ <;> rw [e] <;> exact ⟨rfl, id⟩

/-- The induction over steps, once: a property of the registers that initialising gives, that every instruction keeps
and that does not look at `err`, BitEngine's signals and the presented events is kept by every step. -/
theorem step_induction (P : State → Prop)
    (registers : ∀ s s' : State, s'.h = s.h → s'.chunk = s.chunk → s'.total = s.total → s'.D = s.D →
      s'.digestValid = s.digestValid → s'.phase = s.phase → P s → P s')
    (initial : ∀ s, P (initialise s)) (instruction : ∀ i s t, P s → exec i s = .next t → P t)
    {s t : State} (h : P s) (hs : step s = .next t) : P t := by
  unfold step at hs
  split at hs
  · cases hs; exact h
  · rename_i e rest _
    have h' : P { s with host := rest } := registers s _ rfl rfl rfl rfl rfl rfl h
    cases e with
    | reset => cases hs; exact initial _
    | command w =>
      simp only [takeEvent] at hs
      split at hs
      · rcases acceptCommand_cases w { s with host := rest } with ⟨i, _, e⟩ | ⟨r, _, e⟩
        · rw [e] at hs; exact instruction i _ t h' hs
        · rw [e, next_inj] at hs; subst hs
          rcases acceptIllegal_cases { s with host := rest } with ⟨_, e⟩ | ⟨_, e⟩ <;> rw [e]
          · exact registers s _ rfl rfl rfl rfl rfl rfl h
          · exact h'
      · cases hs; exact registers s _ rfl rfl rfl rfl rfl rfl h
    | bitEngine ctl x =>
      exact instruction (decodeBitEngine ctl) { s with host := rest, beX := x } t
        (registers s _ rfl rfl rfl rfl rfl rfl h) hs

/-- One step of a run. -/
theorem run_succ_of_step {s t : State} (k : Nat) (h : step s = .next t) :
    Host.Core.run Sys2Proof.core (k + 1) s = Host.Core.run Sys2Proof.core k t := by
  have h' : Sys2Proof.core.step s = .next t := h
  simp only [Host.Core.run, h']

theorem runBurst_cons {i : Instr} {is : List Instr} {s t : State} (h : exec i s = .next t) :
    runBurst (i :: is) s = runBurst is t := by rw [runBurst, h]

theorem runBurst_append {is js : List Instr} {s t : State} (h : runBurst is s = .next t) :
    runBurst (is ++ js) s = runBurst js t := by
  induction is generalizing s with
  | nil => cases h; rfl
  | cons i is ih =>
    obtain ⟨u, hu⟩ := exec_next i s
    rw [runBurst_cons hu] at h
    rw [List.cons_append, runBurst_cons hu, ih h]

/-- A burst of ingestion commands that completes is one push of all its bits (20_memory.md R63). -/
theorem runBurst_push {is : List Instr} {xs : List (List Bool)} {s : State} (h : is.map pushedBits = xs.map some)
    (hw : ∀ i ∈ is, i.wellFormed = true) (he : s.err = .noFault) (hl : s.total.toNat + xs.flatten.length < 2 ^ 32) :
    runBurst is s = .next (pushSeq xs.flatten s) := by
  induction is generalizing xs s with
  | nil => cases xs with
    | nil => rfl
    | cons x xs => simp at h
  | cons i is ih => cases xs with
    | nil => simp at h
    | cons x xs =>
      simp only [List.map_cons, List.cons.injEq] at h
      simp only [List.flatten_cons, List.length_append] at hl
      rw [runBurst_cons (exec_push h.1 (hw i (by simp)) he (by omega)),
        ih h.2 (fun j hj => hw j (by simp [hj])) (by simpa using he) (by rw [pushSeq_total_toNat (by omega)]; omega),
        List.flatten_cons, pushSeq_append]

end Sys2Proof.Machine
end

