-- ==== Sys2Proof/Laws/BitEngine.lean ====
section
/-! SUPPORT. BitEngine's two functions by bits and by numbers. -/

namespace Sys2Proof.Machine

/-- Bit `i` of a rotation (40_bitengine.md R100). -/
theorem rotr_getLsbD (x : Word) (n : Fin 32) (i : Nat) (hi : i < 32) :
    (rotr x n).getLsbD i = x.getLsbD ((i + n.val) % 32) := by
  have hn := n.isLt
  rw [rotr, BitVec.getLsbD_rotateRight, Nat.mod_eq_of_lt hn]
  by_cases h : i < 32 - n.val
  · have h1 : (i + n.val) % 32 = n.val + i := by omega
    simp [h, h1]
  · have h1 : (i + n.val) % 32 = i - (32 - n.val) := by omega
    simp [h, h1, hi]

/-- Bit `i` of a shift (40_bitengine.md R101). -/
theorem shr_getLsbD (x : Word) (n : Fin 32) (i : Nat) : (shr x n).getLsbD i = x.getLsbD (n.val + i) := by
  rw [shr, BitVec.getLsbD_ushiftRight]

/-- The shift as a number (40_bitengine.md R101). -/
theorem shr_toNat (x : Word) (n : Fin 32) : (shr x n).toNat = x.toNat / 2 ^ n.val := by
  rw [shr, BitVec.toNat_ushiftRight, Nat.shiftRight_eq_div_pow]

end Sys2Proof.Machine
end

