-- ==== Sys2Proof/Laws/Compression.lean ====
section
/-! SUPPORT. The message schedule word by word, and the rounds one at a time. -/

namespace Sys2Proof.Machine

/-- Extending a schedule in two goes. -/
theorem extendSchedule_add (m n : Nat) (ws : List Word) :
    extendSchedule (m + n) ws = extendSchedule n (extendSchedule m ws) := by
  induction m generalizing ws with
  | zero => rw [Nat.zero_add]; rfl
  | succ m ih => rw [Nat.add_right_comm]; exact ih _

/-- Extending keeps the words that are there, at the far end of the newest-first list. -/
theorem extendSchedule_drop (n : Nat) (ws : List Word) : (extendSchedule n ws).drop n = ws := by
  induction n generalizing ws with
  | zero => rfl
  | succ n ih =>
    rw [extendSchedule, ← List.drop_drop, ih (scheduleStep ws)]
    rfl

/-- One round more (43_compression.md R183). -/
theorem roundsUpTo_succ (n : Nat) (hn : n < 64) (h : Vector Word 8) (w : Vector Word 64) :
    roundsUpTo (n + 1) h w = round (roundsUpTo n h w) K[n] w[n] := by
  unfold roundsUpTo
  rw [List.take_succ_eq_append_getElem (by simp; omega), List.foldl_append]
  simp

theorem roundsUpTo_zero (h : Vector Word 8) (w : Vector Word 64) : roundsUpTo 0 h w = h := by simp [roundsUpTo]

/-- The schedule newest word first, as it is built. -/
def newest (buf : Vector Word 16) : List Word := extendSchedule 48 buf.toList.reverse

theorem newest_length (buf : Vector Word 16) : (newest buf).length = 64 := by simp [newest, extendSchedule_length]

/-- `w[i]` by its place counted from the newest word. -/
theorem schedule_getElem (buf : Vector Word 16) (i : Nat) (hi : i < 64) :
    (schedule buf)[i] = (newest buf).getD (63 - i) 0 := by
  have h : (newest buf).length = 64 := newest_length buf
  rw [List.getD_eq_getElem _ _ (by omega)]
  show (newest buf).reverse.toArray[i]'(by simp [h]; exact hi) = _
  rw [List.getElem_toArray, List.getElem_reverse]
  simp [h]

theorem getD_drop_zero (l : List Word) (n k : Nat) : (l.drop n).getD k 0 = l.getD (n + k) 0 := by
  simp [List.getD_eq_getElem?_getD]

/-- The schedule as it stood when `w[i]` had just been added. -/
theorem newest_drop (buf : Vector Word 16) (i : Nat) (hi : i < 64) (h16 : 16 ≤ i) :
    (newest buf).drop (63 - i) = scheduleStep ((newest buf).drop (64 - i)) := by
  have e : newest buf = extendSchedule (63 - i) (scheduleStep (extendSchedule (i - 16) buf.toList.reverse)) := by
    rw [newest, show 48 = (i - 16) + ((63 - i) + 1) by omega, extendSchedule_add, Nat.add_comm (63 - i) 1,
      extendSchedule_add]
    rfl
  have d1 : (newest buf).drop (63 - i) = scheduleStep (extendSchedule (i - 16) buf.toList.reverse) := by
    rw [e, extendSchedule_drop]
  have d2 : extendSchedule (i - 16) buf.toList.reverse = (newest buf).drop (64 - i) := by
    rw [show 64 - i = (63 - i) + 1 by omega, ← List.drop_drop, d1]; rfl
  rw [d1, d2]

end Sys2Proof.Machine
end

