-- ==== Sys2Proof/Laws/PerInstr.lean ====
section
/-! SUPPORT. Statements about every instruction, one lemma per constructor: the opcode field of its word. -/

namespace Sys2Proof.Laws.OpcodeField

/-- The opcode of 30_encoding.md R72 in bits 47..44 of a command's word, and the function bit of R79 in bit 5 of a
control word. -/
def Statement (i : Instr) : Prop :=
  match i, encode i with
  | .init, .cmd w => opField w = 0x1
  | .pushBit _, .cmd w => opField w = 0x2
  | .pushBits _ _, .cmd w => opField w = 0x3
  | .pushValLo _ _, .cmd w => opField w = 0x4
  | .pushValHi _ _, .cmd w => opField w = 0x5
  | .pushByte _, .cmd w => opField w = 0x6
  | .pushWord _, .cmd w => opField w = 0x7
  | .hash _, .cmd w => opField w = 0x8
  | .rotr _, .be w => w.getLsbD 5 = false
  | .shr _, .be w => w.getLsbD 5 = true
  | _, _ => False

theorem init : Statement .init := opField_commandWord _ _ _
theorem pushBit (data : BitVec 32) : Statement (.pushBit data) := opField_commandWord _ _ _
theorem pushBits (bit : BitVec 12) (count : BitVec 32) : Statement (.pushBits bit count) := opField_commandWord _ _ _
theorem pushValLo (width : BitVec 12) (value : BitVec 32) : Statement (.pushValLo width value) :=
  opField_commandWord _ _ _
theorem pushValHi (width : BitVec 12) (value : BitVec 32) : Statement (.pushValHi width value) :=
  opField_commandWord _ _ _
theorem pushByte (value : BitVec 32) : Statement (.pushByte value) := opField_commandWord _ _ _
theorem pushWord (value : BitVec 32) : Statement (.pushWord value) := opField_commandWord _ _ _
theorem hash (preserve : Bool) : Statement (.hash preserve) := opField_commandWord _ _ _
theorem rotr (n : Fin 32) : Statement (.rotr n) := by
  show (controlWord 0 n).getLsbD 5 = false
  revert n; decide
theorem shr (n : Fin 32) : Statement (.shr n) := by
  show (controlWord 1 n).getLsbD 5 = true
  revert n; decide

end Sys2Proof.Laws.OpcodeField
end

