-- ==== Sys2Proof/Laws/Ports.lean ====
section
/-! SUPPORT. The status outputs bit by bit. -/

namespace Sys2Proof.Machine

theorem cmdReady_iff (s : State) : s.cmdReady = true ↔ s.phase = .collecting := by simp [State.cmdReady]

/-- Bits of a word with a 32-bit word appended below: the lower 32 are the appended word's, the rest move up. -/
theorem append_word_getLsbD {w : Nat} (x : BitVec w) (y : Word) (i : Nat) :
    (x ++ y).getLsbD i = if i < 32 then y.getLsbD i else x.getLsbD (i - 32) := by
  rw [BitVec.getLsbD_append]

/-- Bit `k` of `D[j]` on the port `digest[255:0]` (10_state.md R38). -/
theorem digestPort_getLsbD (D : Vector Word 8) (j k : Nat) (hj : j < 8) (hk : k < 32) :
    (digestPort D).getLsbD (32 * (7 - j) + k) = D[j].getLsbD k := by
  have go : ∀ i, (digestPort D).getLsbD i =
      if i < 32 then D[7].getLsbD i else if i - 32 < 32 then D[6].getLsbD (i - 32)
      else if i - 32 - 32 < 32 then D[5].getLsbD (i - 32 - 32)
      else if i - 32 - 32 - 32 < 32 then D[4].getLsbD (i - 32 - 32 - 32)
      else if i - 32 - 32 - 32 - 32 < 32 then D[3].getLsbD (i - 32 - 32 - 32 - 32)
      else if i - 32 - 32 - 32 - 32 - 32 < 32 then D[2].getLsbD (i - 32 - 32 - 32 - 32 - 32)
      else if i - 32 - 32 - 32 - 32 - 32 - 32 < 32 then D[1].getLsbD (i - 32 - 32 - 32 - 32 - 32 - 32)
      else D[0].getLsbD (i - 32 - 32 - 32 - 32 - 32 - 32 - 32) := by
    intro i
    simp only [digestPort, append_word_getLsbD]
  rw [go]
  have hcases : j = 0 ∨ j = 1 ∨ j = 2 ∨ j = 3 ∨ j = 4 ∨ j = 5 ∨ j = 6 ∨ j = 7 := by omega
  rcases hcases with rfl | rfl | rfl | rfl | rfl | rfl | rfl | rfl
  all_goals repeat rw [if_neg (by omega)]
  all_goals try rw [if_pos (by omega)]
  all_goals exact congrArg (BitVec.getLsbD _) (by omega)

end Sys2Proof.Machine
end

