-- ==== Sys2Proof/Laws/System.lean ====
section
/-! SUPPORT. What a step of one engine can do to a system of engines, said once. -/

namespace Sys2Proof.Machine

/-- Every step completes (70_reset_and_hazards.md R253). -/
theorem step_next (s : State) : ∃ t, step s = .next t := by
  unfold step
  split
  · exact ⟨_, rfl⟩
  · exact takeEvent_next _ _

theorem stepped_of_step {s t : State} (h : step s = .next t) : stepped s = t := by simp [stepped, h]

/-- Engine `k` after a step of engine `j`: its own step if it is that engine, untouched otherwise. -/
theorem stepEngine_getElem? (sys : System) (j k : Nat) :
    (sys.stepEngine j)[k]? = if j = k then sys[k]?.map stepped else sys[k]? := by
  unfold System.stepEngine
  split <;> simp [*]

end Sys2Proof.Machine
end

