-- ==== Sys2Proof/Tests/Slice0.lean ====
section
/-! SUPPORT. Tests, with expected values from 95_test_vectors.md or written out from the encodings of 30_encoding.md,
and one witness for the hypotheses of each obligation that has any. -/

namespace Sys2Proof.Tests

-- One test after another: checked all at once, each on a thread of its own, they can run out of threads.
set_option Elab.async false

open Sys2Proof Sys2Proof.Machine

/-! ### Helpers -/

/-- The next state has the property. -/
def leaves (o : Host.Outcome State Fault Refusal) (p : State → Bool) : Bool :=
  match o with
  | .next t => p t
  | .fault _ => false
  | .refused _ => false

/-- One step from reset with a table row's word presented. -/
def firstStep (nbits w : Nat) (p : State → Bool) : Bool := leaves (step (State.reset.withFetchWord nbits w)) p

/-- The state after `n` zero bits from reset, for `n` below 512: the buffer is still all zero. -/
def zeros (n : Nat) : State := { State.reset with total := BitVec.ofNat 64 n }

/-- The fault state of a core that was reset and then faulted. -/
def faulty : State := { State.reset with err := .errRange }

/-- A core that is executing a command. -/
def busy : State := { State.reset with phase := .compressing }

/-- A core that has taken the bits 1, 0, 1 (vector V20e). -/
def three : State := pushSeq [true, false, true] State.reset

/-- A buffer with one word. -/
def buffer0 (x : Word) : Vector Word 16 := zeroChunk.set 0 x

/-! ### Canonical operands: an ill-formed instruction for every check (30_encoding.md R73) -/

theorem test_illFormed_pushBit : (Instr.pushBit 2).wellFormed = false := by decide
theorem test_illFormed_pushBits : (Instr.pushBits 2 0).wellFormed = false := by decide
theorem test_illFormed_pushValLo : (Instr.pushValLo 0 7).wellFormed = false ∧ (Instr.pushValLo 33 7).wellFormed = false := by decide
theorem test_illFormed_pushValHi : (Instr.pushValHi 0 7).wellFormed = false ∧ (Instr.pushValHi 33 7).wellFormed = false := by decide
theorem test_illFormed_pushByte : (Instr.pushByte 256).wellFormed = false := by decide
theorem test_wellFormed_limits :
    (Instr.pushBit 1).wellFormed = true ∧ (Instr.pushBits 1 0xffffffff).wellFormed = true ∧
    (Instr.pushValLo 1 0).wellFormed = true ∧ (Instr.pushValHi 32 0).wellFormed = true ∧
    (Instr.pushByte 255).wellFormed = true := by decide

/-! ### Decoding: a word of every constructor, bit by bit as 30_encoding.md R71 to R73 and R79 lay it out -/

theorem test_decode_init :
    decode (.cmd 0b0001_000000000000_00000000000000000000000000000000) = .ok .init := by decide
theorem test_decode_pushBit :
    decode (.cmd 0b0010_000000000000_00000000000000000000000000000001) = .ok (.pushBit 1) := by decide
theorem test_decode_pushBits :
    decode (.cmd 0b0011_000000000001_00000000000000000000000000000101) = .ok (.pushBits 1 5) := by decide
theorem test_decode_pushValLo :
    decode (.cmd 0b0100_000000000011_11111111111111111111111111110101) = .ok (.pushValLo 3 0xfffffff5) := by decide
theorem test_decode_pushValHi :
    decode (.cmd 0b0101_111111111111_10100000000000000000000000000000) = .ok (.pushValHi 0xfff 0xa0000000) := by decide
theorem test_decode_pushByte :
    decode (.cmd 0b0110_000000000000_00000000000000000000000101100010) = .ok (.pushByte 0x162) := by decide
theorem test_decode_pushWord :
    decode (.cmd 0b0111_000000000000_01100001011000100110001110000000) = .ok (.pushWord 0x61626380) := by decide
theorem test_decode_hash :
    decode (.cmd 0b1000_000000000000_00000000000000000000000000000000) = .ok (.hash false) ∧
    decode (.cmd 0b1000_000000000001_00000000000000000000000000000000) = .ok (.hash true) := by decide
theorem test_decode_rotr : decode (.be 0b0_01101) = .ok (.rotr 13) ∧ decode (.be 0b0_11111) = .ok (.rotr 31) := by decide
theorem test_decode_shr : decode (.be 0b1_01010) = .ok (.shr 10) ∧ decode (.be 0b1_00000) = .ok (.shr 0) := by decide

/-- V500 to V504, V507, V517 to V521: reserved opcodes and non-zero must-be-zero fields are refused by name. -/
theorem test_decode_illegal :
    decode (.cmd 0x000000000000) = .error .reservedOpcode ∧ decode (.cmd 0x900000000000) = .error .reservedOpcode ∧
    decode (.cmd 0xffffffffffff) = .error .reservedOpcode ∧ decode (.cmd 0x100100000000) = .error .mustBeZero ∧
    decode (.cmd 0x100000000001) = .error .mustBeZero ∧ decode (.cmd 0x200100000001) = .error .mustBeZero ∧
    decode (.cmd 0x6001000001ff) = .error .mustBeZero ∧ decode (.cmd 0x700100000000) = .error .mustBeZero ∧
    decode (.cmd 0x800200000000) = .error .mustBeZero ∧ decode (.cmd 0x800000000001) = .error .mustBeZero ∧
    decode (.cmd 0x800100000001) = .error .mustBeZero := by decide

theorem test_decodeTableWord :
    decodeTableWord 48 0x401000006263 = some (.pushValLo 16 0x6263) ∧ decodeTableWord 8 0x2a = some (.shr 10) ∧
    decodeTableWord 48 0x900000000000 = none := by decide

/-! ### One step of every instruction, the word presented as the first one after reset -/

/-- V583, the last word: out of the fault state, everything cleared. -/
theorem test_step_init :
    leaves (step (({ three with err := .errRange, D := Vector.replicate 8 7, digestValid := true } : State).withFetchWord 48
      0x100000000000)) (fun t => t = State.reset) = true := by decide +kernel

/-- V20a. -/
theorem test_step_pushBit :
    firstStep 48 0x200000000001 (fun t => t.total = 1 ∧ t.chunk = buffer0 0x80000000 ∧ t.h = IV ∧ t.err = .noFault) = true := by
  decide +kernel
/-- V26, the 512th bit, on the state of V25. -/
theorem test_step_pushBit_512 :
    leaves (step (({ zeros 511 with chunk := (Vector.replicate 16 0xffffffff).set 15 0xfffffffe } : State).withFetchWord 48
      0x200000000001)) (fun t => t.total = 512 ∧ t.chunk = zeroChunk ∧ t.phase = .collecting ∧
        t.h = #v[0xef0c748d, 0xf4da50a8, 0xd6c43c01, 0x3edc3ce7, 0x6c9d9fa9, 0xa1458ade, 0x56eb86c0, 0xa64492d2]) = true := by
  decide +kernel
/-- V20c. -/
theorem test_step_pushBits :
    firstStep 48 0x300100000005 (fun t => t.total = 5 ∧ t.chunk = buffer0 0xf8000000) = true := by decide +kernel
/-- V510: range before length, and nothing pushed. -/
theorem test_step_pushBits_range :
    firstStep 48 0x3002ffffffff (fun t => t.err = .errRange ∧ t.total = 0 ∧ t.chunk = zeroChunk) = true := by decide +kernel
/-- V20f: the bits above the width are ignored. -/
theorem test_step_pushValLo :
    firstStep 48 0x4003fffffff5 (fun t => t.total = 3 ∧ t.chunk = buffer0 0xa0000000) = true := by decide +kernel
/-- V27c: the last push that is accepted. -/
theorem test_step_pushValLo_limit :
    leaves (step ((zeros (2 ^ 32 - 8)).withFetchWord 48 0x400700000000))
      (fun t => t.total = 0xffffffff ∧ t.err = .noFault) = true := by decide +kernel
/-- V20j: the bits below the window are ignored. -/
theorem test_step_pushValHi :
    firstStep 48 0x5003bfffffff (fun t => t.total = 3 ∧ t.chunk = buffer0 0xa0000000) = true := by decide +kernel
/-- V515. -/
theorem test_step_pushValHi_range :
    firstStep 48 0x5fff00000000 (fun t => t.err = .errRange ∧ t.total = 0) = true := by decide +kernel
/-- V21a, its second word: a byte across two words of the buffer. -/
theorem test_step_pushByte :
    leaves (step ((zeros 30).withFetchWord 48 0x6000000000ff))
      (fun t => t.total = 38 ∧ t.chunk = (buffer0 0x00000003).set 1 0xfc000000) = true := by decide +kernel
/-- V27b: the length limit. -/
theorem test_step_pushByte_limit :
    leaves (step ((zeros (2 ^ 32 - 8)).withFetchWord 48 0x600000000000))
      (fun t => t.total = 0xfffffff8 ∧ t.err = .errLength) = true := by decide +kernel
/-- V20o. -/
theorem test_step_pushWord :
    firstStep 48 0x700061626380 (fun t => t.total = 32 ∧ t.chunk = buffer0 0x61626380) = true := by decide +kernel
/-- Program P3, command 16: the word that fills the buffer. -/
theorem test_step_pushWord_480 :
    leaves (step (({ zeros 480 with chunk := Vector.ofFn fun j => if j.val = 15 then 0 else BitVec.ofNat 32 j.val } : State).withFetchWord 48
      0x70000000000f)) (fun t => t.total = 512 ∧ t.chunk = zeroChunk ∧
        t.h = #v[0xd623b7e1, 0x81041ec8, 0x48eaae2c, 0xb544fae3, 0x779c2b8b, 0xb09c7c90, 0xe5962c49, 0xcdde609d]) = true := by
  decide +kernel
/-- V49g: a peek at the message abc gives digest T1 and leaves the message. -/
theorem test_step_hash_peek :
    leaves (step (({ zeros 24 with chunk := buffer0 0x61626300 } : State).withFetchWord 48 0x800100000000))
      (fun t => t.total = 24 ∧ t.chunk = buffer0 0x61626300 ∧ t.h = IV ∧ t.digestValid = true ∧
        t.D = #v[0xba7816bf, 0x8f01cfea, 0x414140de, 0x5dae2223, 0xb00361a3, 0x96177a9c, 0xb410ff61, 0xf20015ad]) = true := by
  decide +kernel
/-- V47: 511 one bits, two padding compressions; the state is as after reset but for the digest. -/
theorem test_step_hash_twice :
    leaves (step (({ zeros 511 with chunk := (Vector.replicate 16 0xffffffff).set 15 0xfffffffe } : State).withFetchWord 48
      0x800000000000)) (fun t => t.total = 0 ∧ t.chunk = zeroChunk ∧ t.h = IV ∧ t.digestValid = true ∧
        t.D = #v[0x72c10a55, 0x4047e0b0, 0x1956ca3c, 0x5c2f4e96, 0x8b78ff42, 0x7e3c9047, 0x74d51c10, 0x45447a40]) = true := by
  decide +kernel
/-- B2. -/
theorem test_step_rotr :
    leaves (step (({ State.reset with beX := 0x12345678 } : State).withFetchWord 8 0x04)) (fun t => t.beY = 0x81234567) = true := by
  decide +kernel
/-- B15. -/
theorem test_step_rotr_18 :
    leaves (step ({ State.reset with host := [.bitEngine 0x12 0x61626380] } : State)) (fun t => t.beY = 0x98e01858) = true := by
  decide +kernel
/-- B20. -/
theorem test_step_shr :
    leaves (step (({ State.reset with beX := 0xffffffff } : State).withFetchWord 8 0x23)) (fun t => t.beY = 0x1fffffff) = true := by
  decide +kernel
/-- B19. -/
theorem test_step_shr_31 :
    leaves (step ({ State.reset with host := [.bitEngine 0x3f 0x80000000] } : State)) (fun t => t.beY = 1) = true := by
  decide +kernel

/-- V500 and V504 on a core that has taken bits: only `err` changes. V582: not even that in the fault state. -/
theorem test_step_illegal :
    leaves (step (three.withFetchWord 48 0x000000000000)) (fun t => t = { three with err := .errIllegal }) = true ∧
    leaves (step (three.withFetchWord 48 0x100000000001)) (fun t => t = { three with err := .errIllegal }) = true ∧
    leaves (step (faulty.withFetchWord 48 0x100100000000)) (fun t => t = faulty) = true := by decide +kernel

/-- The reset event, and a word presented while `cmd_ready` is 0. -/
theorem test_step_ports :
    leaves (step ({ faulty with host := [.reset] } : State)) (fun t => t = State.reset) = true ∧
    leaves (step ({ busy with host := [.command 0x200000000001] } : State)) (fun t => t.total = 0 ∧ t.host ≠ []) = true := by
  decide +kernel

/-! ### Operations -/

/-- F1 to F6. -/
theorem test_functions :
    sig0 0x61626380 = 0x940e90ef ∧ sig1 0x00000018 = 0x000f0000 ∧ bigSig0 0x6a09e667 = 0xce20b47e ∧
    bigSig1 0x510e527f = 0x3587272b ∧ ch 0x510e527f 0x9b05688c 0x1f83d9ab = 0x1f85c98c ∧
    maj 0x6a09e667 0xbb67ae85 0x3c6ef372 = 0x3a6fe667 := by decide +kernel

/-- 43_compression.md R189: `K[i]` is `floor(cbrt(p_i) * 2^32) mod 2^32` for the `i`-th prime: with the whole part of the
root put back, its cube is at most `p_i * 2^96` and that of the next number is more. -/
theorem test_roundConstants :
    ([2, 3, 5, 7, 11, 13, 17, 19, 23, 29, 31, 37, 41, 43, 47, 53, 59, 61, 67, 71, 73, 79, 83, 89, 97, 101, 103, 107,
      109, 113, 127, 131, 137, 139, 149, 151, 157, 163, 167, 173, 179, 181, 191, 193, 197, 199, 211, 223, 227, 229,
      233, 239, 241, 251, 257, 263, 269, 271, 277, 281, 283, 293, 307, 311].zip K.toList).all (fun pk =>
        (List.range 7).any fun whole =>
          (whole * 2 ^ 32 + pk.2.toNat) ^ 3 ≤ pk.1 * 2 ^ 96 && pk.1 * 2 ^ 96 < (whole * 2 ^ 32 + pk.2.toNat + 1) ^ 3) =
      true := by decide +kernel

/-- 10_state.md R41: `IV[j]` is `floor(sqrt(p_j) * 2^32) mod 2^32` for the `j`-th prime. -/
theorem test_initialHash :
    ([2, 3, 5, 7, 11, 13, 17, 19].zip IV.toList).all (fun pv =>
      (List.range 5).any fun whole =>
        (whole * 2 ^ 32 + pv.2.toNat) ^ 2 ≤ pv.1 * 2 ^ 64 && pv.1 * 2 ^ 64 < (whole * 2 ^ 32 + pv.2.toNat + 1) ^ 2) =
      true := by decide +kernel

/-- V30: words of the schedule of the chunk of abc. -/
theorem test_schedule :
    (schedule ((buffer0 0x61626380).set 15 0x18))[18] = 0x7da86405 ∧
    (schedule ((buffer0 0x61626380).set 15 0x18))[31] = 0xd3b7973b ∧
    (schedule ((buffer0 0x61626380).set 15 0x18))[63] = 0x12b1edeb := by decide +kernel

/-- V31: the working variables after the first round. -/
theorem test_round :
    roundsUpTo 1 IV (schedule ((buffer0 0x61626380).set 15 0x18)) =
      #v[0x5d6aebcd, 0x6a09e667, 0xbb67ae85, 0x3c6ef372, 0xfa2a4622, 0x510e527f, 0x9b05688c, 0x1f83d9ab] := by decide +kernel

/-- T9 and T1: bytes and hexadecimal digits of a digest. -/
theorem test_digest_text :
    (let D : Vector Word 8 := #v[0xba7816bf, 0x8f01cfea, 0x414140de, 0x5dae2223, 0xb00361a3, 0x96177a9c, 0xb410ff61, 0xf20015ad]
     digestByte D 0 = 0xba ∧ digestByte D 7 = 0xea ∧ digestByte D 31 = 0xad ∧
     digestHexChar D 0 = 'b' ∧ digestHexChar D 3 = '8' ∧ digestHexChar D 63 = 'd') := by decide +kernel

/-- 30_encoding.md R81: the character codes of abc. -/
theorem test_pushAscii : pushAscii ['a', 'b', 'c'] = pushBytes [0x61, 0x62, 0x63] := by decide +kernel

/-! ### Witnesses: a concrete state and operands that meet the hypotheses of each obligation -/

theorem three_carries : three.Carries [true, false, true] :=
  (initialise_carries State.reset).pushSeq (bs := [true, false, true]) (by decide)

theorem zeros_tailZero (n : Nat) : ∀ p : Fin 512, (zeros n).pos ≤ p → chunkReadBit (zeros n).chunk p = false :=
  fun p _ => chunkReadBit_zeroChunk p

/-- `three`, with a word presented, has the invariant. -/
theorem three_inv : (three.presenting [0x200000000001]).Inv := by
  have h : three.Inv := State.Inv.pushSeq (s := State.reset)
    ⟨rfl, by decide, fun p _ => chunkReadBit_zeroChunk p, fun _ => rfl, fun _ => rfl⟩ (by decide)
  exact ⟨h.collecting, h.short, h.tailZero, h.freshHash, h.noDigest⟩

theorem witness_InitCommand :
    (opField 0x100100000000 = 0x1 ∧ auxField 0x100100000000 ≠ 0) ∧
    (opField 0x100000000001 = 0x1 ∧ dataField 0x100000000001 ≠ 0) ∧
    three.err = .noFault ∧ faulty.err ≠ .noFault := by decide

theorem witness_PortHandshake :
    ((three.presenting [0x1]).host = .command 0x1 :: [] ∧ (three.presenting [0x1]).cmdReady = true) ∧
    ((busy.presenting [0x1]).host = .command 0x1 :: [] ∧ (busy.presenting [0x1]).cmdReady = false) ∧
    ({ faulty with host := [.reset, .command 0] } : State).host = .reset :: [.command 0] ∧
    three.host = [] := by decide +kernel

theorem witness_StepRunsTheDecodedInstruction :
    ((three.presenting [0x800100000000]).host = .command 0x800100000000 :: [] ∧
      (three.presenting [0x800100000000]).phase = .collecting ∧ decode (.cmd 0x800100000000) = .ok (.hash true)) ∧
    (({ three with host := [.bitEngine 0x3f 1] } : State).host = .bitEngine 0x3f 1 :: [] ∧
      decode (.be 0x3f) = .ok (.shr 31)) := by decide +kernel

theorem witness_StatusOutputsShowTheRegisters :
    three.cmdReady = true ∧ (State.reset.cmdReady = true ∧ State.reset.err = .noFault ∧ State.reset.AtReset) ∧
    (∀ e : Err, ({ State.reset with err := e } : State).cmdReady = true ∧ ({ State.reset with err := e } : State).err = e) :=
  ⟨by decide +kernel, ⟨rfl, rfl, rfl, rfl, by decide, by decide, rfl, rfl, rfl⟩, fun _ => ⟨rfl, rfl⟩⟩

theorem witness_EncodeOfDecode :
    decode (.cmd 0x5fffffffffff) = .ok (.pushValHi 0xfff 0xffffffff) ∧ decode (.be 0x20) = .ok (.shr 0) := by decide

theorem witness_IllegalWordsAreExactlyThese :
    reservedOpcode 0x9fffffffffff ∧ reservedOpcode 0 ∧ nonZeroMbz 0x100000000001 ∧ nonZeroMbz 0x700100000000 ∧
    nonZeroMbz 0x800200000000 ∧ three.err = .noFault := by
  unfold reservedOpcode nonZeroMbz; decide +kernel

theorem witness_DecodingOrder :
    ((0x100100000000 : CmdWord) ≠ 0x100000000000 ∧ faulty.err ≠ .noFault) ∧
    (reservedOpcode 0 ∧ nonZeroMbz 0x100100000000 ∧ three.err = .noFault) ∧
    (decodeCommand 0x200000000002 = .ok (.pushBit 2) ∧ (Instr.pushBit 2).wellFormed = false) ∧
    (decodeCommand 0x200000000001 = .ok (.pushBit 1) ∧ (Instr.pushBit 1).wellFormed = true ∧
      pushedBits (.pushBit 1) = some [true] ∧
      2 ^ 32 ≤ (zeros (2 ^ 32 - 1)).total.toNat + [true].length ∧
      (zeros (2 ^ 32 - 2)).total.toNat + [true].length < 2 ^ 32) ∧
    (decodeCommand 0x800000000000 = .ok (.hash false) ∧ Instr.hash false = .hash false) := by
  unfold reservedOpcode nonZeroMbz; decide +kernel

theorem witness_BitEngineLaws :
    (32 - (31 : Fin 32).val ≤ (1 : Fin 32).val ∧ 32 - (0 : Fin 32).val ≤ 32) ∧
    ((20 : Fin 32).val + (11 : Fin 32).val < 32 ∧ 32 ≤ (20 : Fin 32).val + (12 : Fin 32).val) := by decide

theorem witness_ChunkBitAddresses : (zeros 510).pos.val ≠ 511 ∧ (zeros 511).pos.val = 511 := by decide +kernel

theorem witness_PushBitMicroOperation :
    ((zeros 510).total + 1).toNat % 512 ≠ 0 ∧ ((zeros 511).total + 1).toNat % 512 = 0 := by decide +kernel

theorem witness_PushedBitSequences : (32 : BitVec 12).toNat ≤ 32 := by decide

theorem witness_IngestionIsRepeatedPushBit :
    pushedBits (.pushByte 0xa5) = some [true, false, true, false, false, true, false, true] ∧
    (Instr.pushByte 0xa5).wellFormed = true ∧ (zeros (2 ^ 32 - 9)).err = .noFault ∧
    (zeros (2 ^ 32 - 9)).total.toNat + 8 < 2 ^ 32 := by decide +kernel

theorem witness_PushBitCommand :
    State.reset.err = .noFault ∧
    ((1 : BitVec 32).toNat ≤ 1 ∧ (zeros (2 ^ 32 - 2)).total.toNat + 1 < 2 ^ 32) ∧ (zeros 511).pos.val = 511 ∧
    1 < (2 : BitVec 32).toNat ∧
    ((1 : BitVec 32).toNat ≤ 1 ∧ 2 ^ 32 ≤ (zeros (2 ^ 32 - 1)).total.toNat + 1) ∧ (1 : BitVec 12) ≠ 0 := by
  decide +kernel

theorem witness_PushBitsCommand :
    State.reset.err = .noFault ∧
    ((1 : BitVec 12).toNat ≤ 1 ∧ State.reset.total.toNat + (0xffffffff : BitVec 32).toNat < 2 ^ 32) ∧
    1 < (2 : BitVec 12).toNat ∧
    ((1 : BitVec 12).toNat ≤ 1 ∧ 2 ^ 32 ≤ (zeros 1).total.toNat + (0xffffffff : BitVec 32).toNat) ∧
    ((0 : BitVec 12).toNat ≤ 1 ∧ (0 : BitVec 32) = 0 ∧ (zeros (2 ^ 32 - 1)).total.toNat < 2 ^ 32) := by
  decide +kernel

theorem witness_PushValLoCommand :
    State.reset.err = .noFault ∧
    (1 ≤ (32 : BitVec 12).toNat ∧ (32 : BitVec 12).toNat ≤ 32 ∧ (zeros (2 ^ 32 - 33)).total.toNat + (32 : BitVec 12).toNat < 2 ^ 32) ∧
    ((0 : BitVec 12).toNat = 0 ∧ 32 < (33 : BitVec 12).toNat) ∧
    (1 ≤ (32 : BitVec 12).toNat ∧ (32 : BitVec 12).toNat ≤ 32 ∧ 2 ^ 32 ≤ (zeros (2 ^ 32 - 32)).total.toNat + (32 : BitVec 12).toNat) ∧
    (∀ k, k < (3 : BitVec 12).toNat → (0xfffffff5 : BitVec 32).getLsbD k = (0x5 : BitVec 32).getLsbD k) := by
  decide +kernel

theorem witness_PushValHiCommand :
    State.reset.err = .noFault ∧
    (1 ≤ (1 : BitVec 12).toNat ∧ (1 : BitVec 12).toNat ≤ 32 ∧ (zeros (2 ^ 32 - 2)).total.toNat + (1 : BitVec 12).toNat < 2 ^ 32) ∧
    ((0 : BitVec 12).toNat = 0 ∧ 32 < (0xfff : BitVec 12).toNat) ∧
    (1 ≤ (1 : BitVec 12).toNat ∧ (1 : BitVec 12).toNat ≤ 32 ∧ 2 ^ 32 ≤ (zeros (2 ^ 32 - 1)).total.toNat + (1 : BitVec 12).toNat) ∧
    (∀ k, 32 - (32 : BitVec 12).toNat ≤ k → (0x5 : BitVec 32).getLsbD k = (0x5 : BitVec 32).getLsbD k) :=
  ⟨by decide +kernel, by decide +kernel, by decide +kernel, by decide +kernel, fun _ _ => rfl⟩

theorem witness_PushByteCommand :
    State.reset.err = .noFault ∧
    ((255 : BitVec 32).toNat ≤ 255 ∧ (zeros (2 ^ 32 - 9)).total.toNat + 8 < 2 ^ 32) ∧ 255 < (256 : BitVec 32).toNat ∧
    ((255 : BitVec 32).toNat ≤ 255 ∧ 2 ^ 32 ≤ (zeros (2 ^ 32 - 8)).total.toNat + 8) ∧ (0xfff : BitVec 12) ≠ 0 := by
  decide +kernel

theorem witness_PushWordCommand :
    State.reset.err = .noFault ∧ (zeros (2 ^ 32 - 33)).total.toNat + 32 < 2 ^ 32 ∧
    ((zeros 448).pos.val % 32 = 0 ∧ (zeros 448).pos.val ≠ 480) ∧ (zeros 480).pos.val = 480 ∧
    2 ^ 32 ≤ (zeros (2 ^ 32 - 32)).total.toNat + 32 ∧ (0x800 : BitVec 12) ≠ 0 := by
  decide +kernel

theorem witness_RangeFaultsAreExactlyThese :
    three.err = .noFault ∧ (Instr.pushByte 255).wellFormed = true ∧
    exec (.pushBit 1) (zeros (2 ^ 32 - 1)) = .next { zeros (2 ^ 32 - 1) with err := .errLength } ∧
    exec (.pushBit 2) (zeros (2 ^ 32 - 1)) = .next { zeros (2 ^ 32 - 1) with err := .errRange } :=
  ⟨rfl, rfl, rfl, rfl⟩

theorem witness_LengthFaults :
    pushedBits (.pushBit 1) = some [true] ∧ (Instr.pushBit 1).wellFormed = true ∧ (zeros (2 ^ 32 - 1)).err = .noFault ∧
    exec (.pushBit 1) (zeros (2 ^ 32 - 1)) = .next { zeros (2 ^ 32 - 1) with err := .errLength } ∧
    exec (.hash true) (zeros (2 ^ 32 - 1)) = .next (hashEffect true (zeros (2 ^ 32 - 1))) :=
  ⟨rfl, rfl, rfl, rfl, rfl⟩

theorem witness_IngestionBelowTheBoundary :
    pushedBits (.pushBit 1) = some [true] ∧ (Instr.pushBit 1).wellFormed = true ∧ (zeros 510).err = .noFault ∧
    (zeros 510).total.toNat + [true].length < 2 ^ 32 ∧ (zeros 510).pos.val + [true].length ≤ 511 ∧
    (((509 : Fin 512).val < (zeros 510).pos.val) ∧ (zeros 510).pos.val + [true].length ≤ (511 : Fin 512).val) ∧
    0 < [true].length := by decide +kernel

theorem witness_IngestionAcrossBoundaries :
    pushedBits (.pushBit 1) = some [true] ∧ (Instr.pushBit 1).wellFormed = true ∧ (zeros 511).err = .noFault ∧
    (zeros 511).total.toNat + [true].length < 2 ^ 32 ∧ (zeros 511).phase = .collecting ∧
    (∀ p : Fin 512, (zeros 511).pos ≤ p → chunkReadBit (zeros 511).chunk p = false) :=
  ⟨rfl, rfl, rfl, by decide +kernel, rfl, zeros_tailZero 511⟩

theorem witness_ClosedFormInsideOneChunk :
    pushedBits (.pushBit 1) = some [true] ∧ (Instr.pushBit 1).wellFormed = true ∧ (zeros 510).err = .noFault ∧
    (zeros 510).total.toNat + [true].length < 2 ^ 32 ∧ (zeros 510).pos.val + [true].length ≤ 511 ∧
    (∀ p : Fin 512, (zeros 510).pos ≤ p → chunkReadBit (zeros 510).chunk p = false) :=
  ⟨rfl, rfl, rfl, by decide +kernel, by decide +kernel, zeros_tailZero 510⟩

theorem witness_AlignedByteFillsOneLane :
    (255 : BitVec 32).toNat ≤ 255 ∧ (zeros 496).err = .noFault ∧ (zeros 496).total.toNat + 8 < 2 ^ 32 ∧
    (zeros 496).pos.val % 8 = 0 ∧ (zeros 496).pos.val ≠ 504 ∧ (zeros 504).pos.val % 8 = 0 ∧ (zeros 504).pos.val = 504 := by
  decide +kernel

theorem witness_CommandEquivalences :
    (255 : BitVec 32).toNat ≤ 255 ∧
    1 < (2 : BitVec 12).toNat ∧
    (zeros 510).total.toNat + (1 : BitVec 32).toNat + (512 : BitVec 32).toNat < 2 ^ 32 ∧
    (zeros (2 ^ 32 - 33)).total.toNat + 32 < 2 ^ 32 := by decide +kernel

theorem witness_FragmentationIndependence :
    ([Instr.pushBit 1, .pushBit 0].map pushedBits = [[true], [false]].map some) ∧
    ([Instr.pushValLo 2 2].map pushedBits = [[true, false]].map some) ∧
    (∀ i ∈ [Instr.pushBit 1, .pushBit 0], i.wellFormed = true) ∧ (∀ i ∈ [Instr.pushValLo 2 2], i.wellFormed = true) ∧
    [[true], [false]].flatten = [[true, false]].flatten ∧ (zeros 511).err = .noFault ∧
    (zeros 511).total.toNat + [[true], [false]].flatten.length < 2 ^ 32 := by decide +kernel

theorem witness_IngestionAppendsToTheMessage :
    pushedBits (.pushBit 1) = some [true] ∧ (Instr.pushBit 1).wellFormed = true ∧ three.err = .noFault ∧
    three.Carries [true, false, true] ∧ [true, false, true].length + [true].length < 2 ^ 32 :=
  ⟨rfl, rfl, pushSeq_err _ _, three_carries, by decide⟩

theorem witness_PaddingCount :
    (447 % 512 ≤ 447 ∧ 448 ≤ 448 % 512 ∧ 448 ≤ 511 % 512) ∧ (448 + 1 + 511 + 64) % 512 = 0 := by decide

theorem witness_HashCommand :
    three.err = .noFault ∧ 1 < (2 : BitVec 12).toNat ∧ (0x80000000 : BitVec 32) ≠ 0 := by decide +kernel

theorem witness_HashPadsOneOrTwoChunks :
    ((zeros 447).err = .noFault ∧ (zeros 447).pos.val ≤ 447) ∧
    ((zeros 448).err = .noFault ∧ 448 ≤ (zeros 448).pos.val) := by decide +kernel

theorem witness_DestructiveHashEndState : three.err = .noFault ∧ three.Carries [true, false, true] :=
  ⟨pushSeq_err _ _, three_carries⟩

theorem witness_PeekPreservesTheMessage :
    three.err = .noFault ∧ three.phase = .collecting ∧ (∀ i ∈ [Instr.pushBit 1], isIngestion i) ∧
    three.Carries [true, false, true] ∧
    ∃ u, runBurst ([Instr.pushBit 1] ++ [.hash false]) three = .next u ∧ u.err = .noFault := by
  have e : three.err = .noFault := pushSeq_err _ _
  have t : three.total.toNat + [true].length < 2 ^ 32 := by rw [three_carries.counted]; decide
  have p : three.phase = .collecting := pushSeq_phase rfl
  have hb : pushedBits (Instr.pushBit 1) = some [true] := rfl
  have hw : (Instr.pushBit 1).wellFormed = true := rfl
  have i : isIngestion (.pushBit 1) := rfl
  have tc := three_carries
  generalize three = s at *
  have x := exec_push hb hw e t
  refine ⟨e, p, by simpa using i, tc, hashEffect false (pushSeq [true] s), ?_, by simp [e]⟩
  rw [List.singleton_append, runBurst_cons x, runBurst_cons (exec_hash_operational ((pushSeq_err _ _).trans e)), runBurst]

theorem witness_HashComputesTheDigestOfTheMessage : three.Carries [true, false, true] ∧ three.err = .noFault :=
  ⟨three_carries, pushSeq_err _ _⟩

theorem witness_EmptyMessageDigest : (zeros 0).err = .noFault ∧ (zeros 0).h = IV ∧ (zeros 0).total = 0 := ⟨rfl, rfl, rfl⟩

theorem bytes_in_range : ∀ v ∈ ([0x61, 0xff] : List (BitVec 32)), v.toNat ≤ 255 := by
  intro v hv
  rcases List.mem_pair.mp hv with rfl | rfl <;> decide

theorem witness_HashofGivesTheDigest :
    ((∀ v ∈ ([0x61, 0xff] : List (BitVec 32)), v.toNat ≤ 255) ∧ 8 * ([0x61, 0xff] : List (BitVec 32)).length < 2 ^ 32) ∧
    ((∀ b ∈ ([1, 0] : List (BitVec 32)), b.toNat ≤ 1) ∧ ([1, 0] : List (BitVec 32)).length < 2 ^ 32) := by
  refine ⟨⟨bytes_in_range, ?_⟩, ⟨?_, ?_⟩⟩
  · show 8 * 2 < 2 ^ 32; omega
  · intro v hv
    rcases List.mem_pair.mp hv with rfl | rfl <;> decide
  · show 2 < 2 ^ 32; omega

theorem witness_MessageSchedule : 15 < 16 ∧ 16 < 64 ∧ 16 ≤ 16 ∧ 63 < 64 ∧ 16 ≤ 63 := by decide

theorem witness_CompressionRounds : 0 < 64 ∧ 63 < 64 ∧ 7 < 8 := by decide

theorem witness_ChooseAndMajorityBitByBit : 31 < 32 := by decide

theorem witness_ChunkingProperty :
    State.reset.Carries [] ∧ (List.replicate 512 true).length = 512 ∧ (List.replicate 512 false).length = 512 :=
  ⟨carries_nil rfl rfl rfl, List.length_replicate, List.length_replicate⟩

theorem witness_FaultChangesOnlyErr :
    (exec (.pushBit 2) (zeros 1) = .next { zeros 1 with err := .errRange } ∧ Err.errRange ≠ (zeros 1).err ∧
      Err.errRange ≠ .noFault) ∧
    (acceptCommand 0x900000000000 (zeros 1) = .next { zeros 1 with err := .errIllegal } ∧ Err.errIllegal ≠ (zeros 1).err ∧
      Err.errIllegal ≠ .noFault) := ⟨⟨rfl, by decide, by decide⟩, rfl, by decide, by decide⟩

theorem witness_FaultStateIgnoresCommands : faulty.err ≠ .noFault ∧ (0x100000000001 : CmdWord) ≠ 0x100000000000 := by decide

theorem witness_OnlyInitAndResetLeaveTheFaultState :
    (takeEvent .reset faulty = .next State.reset ∧ faulty.err ≠ .noFault ∧ State.reset.err = .noFault) ∧
    takeEvent (.command 0x100000000000) faulty = .next State.reset := ⟨⟨rfl, by decide, rfl⟩, rfl⟩

theorem witness_DigestValidChanges :
    (State.reset.err = .noFault ∧ exec (.hash true) State.reset = .next (hashEffect true State.reset)) ∧
    exec .init faulty = .next State.reset ∧ takeEvent .reset faulty = .next State.reset ∧
    (Instr.pushBit 2 ≠ .init ∧ (∀ p, Instr.pushBit 2 ≠ .hash p) ∧
      exec (.pushBit 2) State.reset = .next { State.reset with err := .errRange }) ∧
    (decodeCommand 0x100000000001 = .error .mustBeZero ∧
      acceptCommand 0x100000000001 State.reset = .next { State.reset with err := .errIllegal }) :=
  ⟨⟨rfl, rfl⟩, rfl, rfl, ⟨by decide, by decide, rfl⟩, rfl, rfl⟩

theorem witness_AccessByCommand :
    (pushedBits (.pushBit 1) = some [true] ∧ exec (.pushBit 1) (zeros 510) = .next (pushBit true (zeros 510)) ∧
      (zeros 510).pos.val + [true].length ≤ 511 ∧ (zeros 510).err = .noFault ∧
      (pushBit true (zeros 510)).err = .noFault) ∧
    (pushedBits (.pushBit 2) = some [false] ∧
      exec (.pushBit 2) (zeros 511) = .next { zeros 511 with err := .errRange } ∧
      ({ zeros 511 with err := .errRange } : State).err ≠ (zeros 511).err) ∧
    ((zeros 3).err = .noFault ∧ faulty.err ≠ .noFault) ∧
    (reservedOpcode 0xf00000000000 ∧ nonZeroMbz 0x100000000001 ∧
      acceptCommand 0xf00000000000 (zeros 3) = .next { zeros 3 with err := .errIllegal } ∧
      acceptCommand 0x100000000001 faulty = .next faulty ∧ (zeros 448).err = (zeros 3).err) ∧
    exec (.rotr 1) (zeros 3) = .next { zeros 3 with beY := rotr 0 1 } ∧
    exec (.shr 1) (zeros 3) = .next { zeros 3 with beY := shr 0 1 } := by
  refine ⟨⟨rfl, ?_, by decide +kernel, rfl, pushBit_err _ _⟩, ⟨rfl, rfl, nofun⟩, ⟨rfl, nofun⟩,
    ⟨?_, ?_, rfl, rfl, rfl⟩, rfl, rfl⟩
  · exact exec_push (bits := [true]) rfl rfl rfl (by decide +kernel)
  · unfold reservedOpcode; decide
  · unfold nonZeroMbz; decide

theorem witness_CommandsTakeEffectInOrder :
    (zeros 3).phase = .collecting ∧
    acceptCommand 0x900000000000 { zeros 3 with host := [0x100000000000].map .command } =
      .next { zeros 3 with host := [0x100000000000].map .command, err := .errIllegal } := ⟨rfl, rfl⟩

theorem witness_EnginesAreIndependent :
    (([State.reset, three] : System)[1]? = some three ∧ step three = .next three) ∧ (0 : Nat) ≠ 1 ∧
    [1, 0, 1].count 1 = 2 := by
  refine ⟨⟨rfl, ?_⟩, by decide, rfl⟩
  have h : three.host = [] := pushSeq_host _ _
  simp [step, h]

theorem witness_StepKeepsTheInvariant :
    (three.presenting [0x200000000001]).Inv ∧
    ∃ t, step (three.presenting [0x200000000001]) = .next t := ⟨three_inv, by
      unfold step; exact takeEvent_next _ _⟩

theorem witness_EveryStepCarriesAMessage :
    (∃ m, (three.presenting [0x800000000000]).Carries m) ∧
    ∃ t, step (three.presenting [0x800000000000]) = .next t :=
  ⟨⟨[true, false, true], three_carries.supported, three_carries.counted, three_carries.hashed, three_carries.buffered⟩, by
    unfold step; exact takeEvent_next _ _⟩

end Sys2Proof.Tests
end

section
/-! SUPPORT. The state between commands: what initialising gives, what the operations of a command keep, and what an
illegal word does. -/

namespace Sys2Proof.Machine

/-! ### The reset values -/

theorem initialise_atReset (s : State) : (initialise s).AtReset where
  hash := rfl
  count := rfl
  buffer j := by simp [chunkReadWord, zeroChunk]
  digest j := by simp [zeroDigest]
  invalid := rfl
  clear := rfl
  collecting := rfl

theorem reset_atReset : State.reset.AtReset := initialise_atReset State.reset

/-- The digest port of a register with every word 0 (10_state.md R38, R40). -/
theorem digestPort_eq_zero {D : Vector Word 8} (h : ∀ j : Fin 8, D[j.val] = 0) : digestPort D = 0 := by
  refine BitVec.eq_of_getLsbD_eq fun i hi => ?_
  have hj : 7 - i / 32 < 8 := by omega
  have hi' : i = 32 * (7 - (7 - i / 32)) + i % 32 := by omega
  rw [hi', digestPort_getLsbD D (7 - i / 32) (i % 32) hj (by omega), h ⟨7 - i / 32, hj⟩]
  simp

/-- Only the codes 0 to 3 of `err` exist (60_exceptions.md R210). -/
theorem code_toNat_le (e : Err) : e.code.toNat ≤ 3 := by
  cases e <;> decide

/-! ### One step by the event presented -/

/-- With nothing presented the core holds all state (60_exceptions.md R224). -/
theorem step_idle {s : State} (h : s.host = []) : step s = .next s := by
  unfold step; rw [h]

theorem step_event {s : State} {e : PortEvent} {rest : List PortEvent} (h : s.host = e :: rest) :
    step s = takeEvent e { s with host := rest } := by
  unfold step; rw [h]

theorem step_reset {s : State} {rest : List PortEvent} (h : s.host = .reset :: rest) :
    step s = .next (initialise { s with host := rest }) := step_event h

/-- A presented word is accepted by a ready core, and stays presented otherwise (10_state.md R37). -/
theorem step_command {s : State} {w : CmdWord} {rest : List PortEvent} (h : s.host = .command w :: rest) :
    step s = if s.cmdReady = true then acceptCommand w { s with host := rest } else .next s := by
  rw [step_event h]
  show (if s.cmdReady = true then acceptCommand w { s with host := rest }
    else .next { s with host := .command w :: rest }) = _
  rw [← h]

theorem step_bitEngine {s : State} {ctl : BeWord} {x : Word} {rest : List PortEvent}
    (h : s.host = .bitEngine ctl x :: rest) :
    step s = exec (decodeBitEngine ctl) { s with host := rest, beX := x } := step_event h

/-! ### What a step keeps -/

/-- The induction over steps by operations: a property of the registers other than `err` is kept by every step when
initialising gives it, and pushes within the length limit and an effective `HASH` keep it. -/
theorem step_keeps (P : State → Prop)
    (registers : ∀ s s' : State, s'.h = s.h → s'.chunk = s.chunk → s'.total = s.total → s'.D = s.D →
      s'.digestValid = s.digestValid → s'.phase = s.phase → P s → P s')
    (initial : ∀ s, P (initialise s))
    (push : ∀ bits s, s.total.toNat + bits.length < 2 ^ 32 → P s → P (pushSeq bits s))
    (hash : ∀ p s, P s → P (hashEffect p s))
    {s t : State} (h : P s) (hs : step s = .next t) : P t := by
  refine step_induction P registers initial (fun i s t h hs => ?_) h hs
  rcases instr_cases i with rfl | ⟨bits, hb⟩ | ⟨p, rfl⟩ | ⟨n, rfl | rfl⟩
  · cases hs; exact initial s
  · obtain ⟨u, hu, c⟩ := exec_ingestion_cases hb s
    rw [hu, next_inj] at hs
    subst hs
    rcases c with ⟨_, rfl⟩ | ⟨_, _, rfl⟩ | ⟨_, _, _, rfl⟩ | ⟨_, _, hl, rfl⟩
    · exact h
    · exact registers s _ rfl rfl rfl rfl rfl rfl h
    · exact registers s _ rfl rfl rfl rfl rfl rfl h
    · exact push bits s hl h
  · rw [exec_hash, next_inj] at hs
    subst hs
    by_cases he : s.err = .noFault
    · rw [whenOperational_of_noFault he]; exact hash p s h
    · rw [whenOperational_of_fault he]; exact h
  · cases hs; exact registers s _ rfl rfl rfl rfl rfl rfl h
  · cases hs; exact registers s _ rfl rfl rfl rfl rfl rfl h

/-! ### The invariant -/

theorem pos_eq_of_total {s s' : State} (h : s'.total = s.total) : s'.pos = s.pos :=
  Fin.ext (by rw [pos_val, pos_val, h])

/-- The invariant passes to a state with the same `h`, `chunk` and `total` that is collecting and shows no digest its
flag does not announce. -/
theorem State.Inv.of_message {s s' : State} (h : s.Inv) (hh : s'.h = s.h) (hc : s'.chunk = s.chunk)
    (ht : s'.total = s.total) (hp : s'.phase = .collecting) (hD : s'.digestValid = false → s'.D = zeroDigest) :
    s'.Inv where
  collecting := hp
  short := by rw [ht]; exact h.short
  tailZero := by rw [pos_eq_of_total ht, hc]; exact h.tailZero
  freshHash := by rw [ht, hh]; exact h.freshHash
  noDigest := hD

theorem initialise_inv (s : State) : (initialise s).Inv where
  collecting := rfl
  short := by simp [Config.maxMsgBits]
  tailZero p _ := chunkReadBit_zeroChunk p
  freshHash _ := rfl
  noDigest _ := rfl

/-- A destructive `HASH` starts a new message; a peek leaves the registers of the message (42_finalization.md R155,
R156). -/
theorem State.Inv.hashEffect {s : State} (p : Bool) (h : s.Inv) : (hashEffect p s).Inv := by
  cases p with
  | false =>
    rw [hashEffect_false]
    exact ⟨rfl, by simp [Config.maxMsgBits], fun p _ => chunkReadBit_zeroChunk p, fun _ => rfl, nofun⟩
  | true =>
    rw [hashEffect_true]
    exact h.of_message rfl rfl rfl rfl nofun

/-! ### The message taken -/

/-- Carrying a message is a matter of `h`, `chunk` and `total` only. -/
theorem State.Carries.of_registers {s s' : State} {m : List Bool} (h : s.Carries m) (hh : s'.h = s.h)
    (hc : s'.chunk = s.chunk) (ht : s'.total = s.total) : s'.Carries m :=
  ⟨h.supported, by rw [ht, h.counted], by rw [hh, h.hashed], by rw [hc, h.buffered]⟩

/-- After a destructive `HASH` the engine carries the empty message, after a peek the one it had (42_finalization.md
R155, R156). -/
theorem State.Carries.hashEffect {s : State} {m : List Bool} (p : Bool) (h : s.Carries m) :
    (hashEffect p s).Carries (if p then m else []) := by
  cases p with
  | false => rw [hashEffect_false]; exact carries_nil rfl rfl rfl
  | true =>
    rw [hashEffect_true, if_pos rfl]
    exact h.of_registers rfl rfl rfl

/-! ### Ingestion: what is written and what is not read -/

/-- Pushes write `h`, `chunk`, `total` and `phase` only (41_ingestion.md R133). -/
theorem pushSeq_frame (bs : List Bool) (s : State) :
    pushSeq bs s = { s with h := (pushSeq bs s).h, chunk := (pushSeq bs s).chunk, total := (pushSeq bs s).total,
                            phase := (pushSeq bs s).phase } := by
  rw [← pushSeq_D bs s, ← pushSeq_digestValid bs s, ← pushSeq_err bs s, ← pushSeq_beX bs s, ← pushSeq_beY bs s,
    ← pushSeq_host bs s]

/-- Below the boundary another chunk before the pushes makes no difference but in the chunk after them (10_state.md
R44). -/
theorem pushSeq_within_setChunk {bs : List Bool} {s : State} (h : s.pos.val + bs.length ≤ 511)
    (buf : Vector Word 16) :
    pushSeq bs { s with chunk := buf } =
      { pushSeq bs s with chunk := (pushSeq bs { s with chunk := buf }).chunk } := by
  have hs := pushSeq_within h
  have hb := pushSeq_within (s := { s with chunk := buf }) h
  rw [hb, hs]

/-- Below the boundary the addressed bits of the chunk take the pushed bits whatever the chunk was, the others stay
(10_state.md R44). -/
theorem pushSeq_within_setChunk_bit {bs : List Bool} {s : State} (h : s.pos.val + bs.length ≤ 511)
    (buf : Vector Word 16) (p : Fin 512) :
    chunkReadBit (pushSeq bs { s with chunk := buf }).chunk p =
      if s.pos.val ≤ p.val ∧ p.val < s.pos.val + bs.length then chunkReadBit (pushSeq bs s).chunk p
      else chunkReadBit buf p := by
  have old := pushSeq_within_bit h p
  refine (pushSeq_within_bit (s := { s with chunk := buf }) h p).trans (ite_congr rfl (fun hq => ?_) fun _ => rfl)
  exact (old.trans (if_pos hq)).symm

/-- Below the boundary pushes neither read nor write `h` (10_state.md R44). -/
theorem pushSeq_within_setHash {bs : List Bool} {s : State} (h : s.pos.val + bs.length ≤ 511) (x : Vector Word 8) :
    pushSeq bs { s with h := x } = { pushSeq bs s with h := x } := by
  have hs := pushSeq_within h
  have hx := pushSeq_within (s := { s with h := x }) h
  have hc : (pushSeq bs { s with h := x }).chunk = (pushSeq bs s).chunk :=
    chunk_ext fun p => (pushSeq_within_bit (s := { s with h := x }) h p).trans (pushSeq_within_bit h p).symm
  rw [hx, hc, hs]

/-- An ingestion command commutes with an update of the registers that keeps `err` and `total`, which its checks read,
when faults and its pushes do. -/
theorem ingest_comm {inRange : Bool} {n : Nat} {push : State → State} {s : State} (update : State → State)
    (he : (update s).err = s.err) (ht : (update s).total = s.total)
    (hf : ∀ code, takeFault code (update s) = update (takeFault code s)) (hp : push (update s) = update (push s)) :
    ingest inRange n push (update s) = update (ingest inRange n push s) := by
  rcases ingest_cases inRange n push s with ⟨h, e⟩ | ⟨h, rfl, e⟩ | ⟨h, rfl, hl, e⟩ | ⟨h, rfl, hl, e⟩ <;> rw [e]
  · rw [ingest_ignored (by rwa [he])]
  · rw [ingest_range (he.trans h), hf]
  · rw [ingest_length (he.trans h) (by rwa [ht]), hf]
  · rw [ingest_push (he.trans h) (by rwa [ht]), hp]

variable {i : Instr} {bits : List Bool} {s t : State}

/-- An ingestion command writes `h`, `chunk`, `total`, `err` and `phase` only (10_state.md R44). -/
theorem exec_ingestion_frame (hb : pushedBits i = some bits) (ht : exec i s = .next t) :
    t = { s with h := t.h, chunk := t.chunk, total := t.total, err := t.err, phase := t.phase } := by
  obtain ⟨u, hu, c⟩ := exec_ingestion_cases hb s
  obtain rfl := next_inj.mp (hu.symm.trans ht)
  rcases c with ⟨_, rfl⟩ | ⟨_, _, rfl⟩ | ⟨_, _, _, rfl⟩ | ⟨_, _, _, rfl⟩
  · rfl
  · rfl
  · rfl
  · rw [pushSeq_err]; exact pushSeq_frame bits s

/-- An ingestion command that faults changes `err` alone (60_exceptions.md R214). -/
theorem exec_ingestion_fault (hb : pushedBits i = some bits) (ht : exec i s = .next t) (he : t.err ≠ s.err) :
    t = { s with err := t.err } := by
  obtain ⟨u, hu, c⟩ := exec_ingestion_cases hb s
  obtain rfl := next_inj.mp (hu.symm.trans ht)
  rcases c with ⟨_, rfl⟩ | ⟨_, _, rfl⟩ | ⟨_, _, _, rfl⟩ | ⟨_, _, _, rfl⟩
  · rfl
  · rfl
  · rfl
  · exact absurd (pushSeq_err bits s) he

/-- An ingestion command neither reads nor writes the digest register and its flag (41_ingestion.md R133). -/
theorem exec_ingestion_setDigest (hb : pushedBits i = some bits) (ht : exec i s = .next t) (D : Vector Word 8)
    (valid : Bool) :
    exec i { s with D := D, digestValid := valid } = .next { t with D := D, digestValid := valid } := by
  rw [exec_ingestion hb, next_inj] at ht
  rw [exec_ingestion hb, ingest_setDigest, ht]

/-- Below the boundary an ingestion command leaves `h` and does not read it (10_state.md R44). -/
theorem exec_ingestion_hash (hb : pushedBits i = some bits) (ht : exec i s = .next t)
    (hp : s.pos.val + bits.length ≤ 511) :
    (∀ h, exec i { s with h := h } = .next { t with h := h }) ∧ t.h = s.h := by
  rw [exec_ingestion hb, next_inj] at ht
  subst ht
  refine ⟨fun h => ?_, ?_⟩
  · rw [exec_ingestion hb, next_inj]
    exact ingest_comm (fun s => { s with h := h }) rfl rfl (fun _ => rfl) (pushSeq_within_setHash hp h)
  · rcases ingest_cases i.wellFormed bits.length (pushSeq bits) s with
      ⟨_, e⟩ | ⟨_, _, e⟩ | ⟨_, _, _, e⟩ | ⟨_, _, _, e⟩ <;> rw [e]
    · rfl
    · rfl
    · rw [pushSeq_within hp]

/-- An ingestion command that ends without a fault is its pushes, on this chunk and on any other. -/
theorem exec_ingestion_of_noFault (hb : pushedBits i = some bits) (ht : exec i s = .next t) (he : s.err = .noFault)
    (he' : t.err = .noFault) :
    t = pushSeq bits s ∧
      ∀ buf, exec i { s with chunk := buf } = .next (pushSeq bits { s with chunk := buf }) := by
  obtain ⟨u, hu, c⟩ := exec_ingestion_cases hb s
  obtain rfl := next_inj.mp (hu.symm.trans ht)
  rcases c with ⟨h, _⟩ | ⟨_, _, rfl⟩ | ⟨_, _, _, rfl⟩ | ⟨_, hw, hl, rfl⟩
  · exact absurd he h
  · cases he'
  · cases he'
  · exact ⟨rfl, fun buf => exec_push hb hw he hl⟩

/-- Below the boundary an ingestion command writes the addressed bits of the chunk only, and its new bits do not
depend on the old chunk (10_state.md R44). -/
theorem exec_ingestion_chunk (hb : pushedBits i = some bits) (ht : exec i s = .next t)
    (hp : s.pos.val + bits.length ≤ 511) (he : s.err = .noFault) (he' : t.err = .noFault) (buf : Vector Word 16) :
    ∃ buf', exec i { s with chunk := buf } = .next { t with chunk := buf' } ∧
      ∀ p : Fin 512, chunkReadBit buf' p =
        if s.pos.val ≤ p.val ∧ p.val < s.pos.val + bits.length then chunkReadBit t.chunk p
        else chunkReadBit buf p := by
  obtain ⟨rfl, hbuf⟩ := exec_ingestion_of_noFault hb ht he he'
  exact ⟨_, by rw [hbuf, pushSeq_within_setChunk hp], pushSeq_within_setChunk_bit hp buf⟩

/-! ### The digest register and its flag -/

/-- An effective `HASH` does not read the digest register and its flag (10_state.md R44). -/
theorem exec_hash_setDigest {p : Bool} (he : s.err = .noFault) (D : Vector Word 8) (valid : Bool) :
    exec (.hash p) { s with D := D, digestValid := valid } = .next (hashEffect p s) := by
  rw [exec_hash_operational (s := { s with D := D, digestValid := valid }) he, hashEffect_setDigest]

/-- Only `INIT` and `HASH` change `digest_valid` (10_state.md R29). -/
theorem exec_digestValid (hi : i ≠ .init) (hh : ∀ p, i ≠ .hash p) (ht : exec i s = .next t) :
    t.digestValid = s.digestValid := by
  rcases instr_cases i with rfl | ⟨bits, hb⟩ | ⟨p, rfl⟩ | ⟨n, rfl | rfl⟩
  · exact absurd rfl hi
  · rw [exec_ingestion_frame hb ht]
  · exact absurd rfl (hh p)
  · cases ht; rfl
  · cases ht; rfl

/-! ### Illegal words -/

/-- A word that decodes has a defined opcode and zero must-be-zero fields (30_encoding.md R73, R76). -/
theorem not_illegal_of_decodeCommand {w : CmdWord} (h : decodeCommand w = .ok i) :
    ¬ (reservedOpcode w ∨ nonZeroMbz w) := by
  have he := encode_of_decodeCommand h
  cases i with
  | rotr n => cases he
  | shr n => cases he
  | hash p => cases he; cases p <;> simp [reservedOpcode, nonZeroMbz]
  | _ => cases he; simp [reservedOpcode, nonZeroMbz]

/-- A word with a reserved opcode or a non-zero must-be-zero field is accepted as no command (30_encoding.md R76). -/
theorem acceptCommand_of_illegal {w : CmdWord} (h : reservedOpcode w ∨ nonZeroMbz w) (s : State) :
    acceptCommand w s = .next { s with err := if s.err = .noFault then .errIllegal else s.err } := by
  rcases acceptCommand_cases w s with ⟨i, hd, _⟩ | ⟨r, _, e⟩
  · exact absurd h (not_illegal_of_decodeCommand hd)
  · rcases acceptIllegal_cases s with ⟨he, e'⟩ | ⟨he, e'⟩
    · rw [e, e', if_pos he]
    · rw [e, e', if_neg he]

end Sys2Proof.Machine
end

section
/-! SUPPORT. The obligations about the state of the core (10_state.md). -/

namespace Sys2Proof.Machine

/-- Settles O59, by `step_keeps`: each operation keeps the invariant. -/
theorem stepKeepsTheInvariant : Obligations.StepKeepsTheInvariant := by
  intro s t h hs
  refine step_keeps State.Inv ?_ initialise_inv (fun _ _ hl h => h.pushSeq hl) (fun p _ h => h.hashEffect p) h hs
  intro s s' hh hc ht hD hv hp h
  exact h.of_message hh hc ht (hp.trans h.collecting) (by rw [hv, hD]; exact h.noDigest)

/-- Settles O60, by `step_keeps`: pushes append to the message carried, `HASH` keeps it or begins the empty one. -/
theorem everyStepCarriesAMessage : Obligations.EveryStepCarriesAMessage := by
  intro s t h hs
  refine step_keeps (fun s => ∃ m, s.Carries m) ?_ (fun s => ⟨[], initialise_carries s⟩) ?_ ?_ h hs
  · rintro s s' hh hc ht - - - ⟨m, h⟩
    exact ⟨m, h.of_registers hh hc ht⟩
  · rintro bits s hl ⟨m, h⟩
    rw [h.counted] at hl
    exact ⟨m ++ bits, h.pushSeq hl⟩
  · rintro p s ⟨m, h⟩
    exact ⟨_, h.hashEffect p⟩

/-- Settles O30: below the boundary the command is its pushes, which write the `n` addressed bits. -/
theorem ingestionBelowTheBoundary : Obligations.IngestionBelowTheBoundary := by
  intro i bits s hb hw he hl hp
  refine ⟨_, exec_push hb hw he hl, pushSeq_within hp, fun q hq => ?_, fun k hk => ?_⟩
  · rw [pushSeq_within_bit hp, if_neg (by omega)]
  · refine ⟨⟨s.pos.val + k, by omega⟩, rfl, ?_⟩
    rw [pushSeq_within_bit hp, if_pos ⟨Nat.le_add_right _ _, Nat.add_lt_add_left hk _⟩, Nat.add_sub_cancel_left,
      List.getD_eq_getElem _ _ hk]

/-- Settles O31: the buffer is fed with its own bits, and the pushes feed the rest. -/
theorem ingestionAcrossBoundaries : Obligations.IngestionAcrossBoundaries := by
  intro i bits s hb hw he hl htail
  have hlen : (s.bufferedBits ++ bits).length = s.pos.val + bits.length := by simp [State.bufferedBits]
  obtain ⟨hashed, buffered, placed⟩ := (Fed.of_tailZero htail).pushSeq bits
  rw [hlen] at hashed buffered placed
  exact ⟨_, exec_push hb hw he hl, hashed, buffered, placed, pushSeq_total_toNat (by omega), pushSeq_D _ _,
    pushSeq_digestValid _ _, pushSeq_err _ _, pushSeq_phase⟩

/-- Settles O53: an effective `HASH` sets the flag, initialising clears it, and nothing else writes it. -/
theorem digestValidChanges : Obligations.DigestValidChanges := by
  refine ⟨fun p s t he ht => ?_, fun s t ht => ?_, rfl, fun s t ht => ?_, fun i s t => exec_digestValid,
    fun w r s t hw ht => ?_⟩
  · rw [exec_hash_operational he, next_inj] at ht
    rw [← ht, hashEffect_digestValid]
  · rw [exec_init, next_inj] at ht
    rw [← ht, initialise_digestValid]
  · cases ht; rfl
  · rw [acceptCommand_of_error hw, next_inj] at ht
    subst ht
    rcases acceptIllegal_cases s with ⟨_, e⟩ | ⟨_, e⟩ <;> rw [e]

/-- Settles O54, row by row of the access table (10_state.md R44). -/
theorem accessByCommand : Obligations.AccessByCommand := by
  refine ⟨fun i bits s t hb ht => ⟨exec_ingestion_frame hb ht, exec_ingestion_fault hb ht,
      exec_ingestion_setDigest hb ht, fun hp => ?_⟩,
    fun s he => ⟨_, exec_hash_operational he, ?_, exec_hash_setDigest he⟩,
    fun s he => ⟨_, exec_hash_operational he, ?_, exec_hash_setDigest he⟩,
    fun p s he => ?_, exec_init, fun w s t hw ht => ?_, fun s => rfl, fun n s t ht => ?_⟩
  · obtain ⟨notRead, notWritten⟩ := exec_ingestion_hash hb ht hp
    exact ⟨notRead, notWritten, exec_ingestion_chunk hb ht hp⟩
  · rw [hashEffect_D]; exact hashEffect_false s
  · rw [hashEffect_D]; exact hashEffect_true s
  · rw [exec_hash, whenOperational_of_fault he]
  · rw [acceptCommand_of_illegal hw, next_inj] at ht
    subst ht
    refine ⟨rfl, fun s' he => ?_⟩
    rw [acceptCommand_of_illegal hw, he]
  · rcases ht with ht | ht <;> cases ht <;> rfl

/-- Settles O1: initialising gives every register its reset value. -/
theorem resetAndInitLeaveTheResetState : Obligations.ResetAndInitLeaveTheResetState :=
  ⟨⟨reset_atReset, rfl, rfl⟩, fun s => ⟨initialise s, exec_init s, initialise_atReset s, rfl, rfl⟩⟩

/-- Settles O3, by the kind of event that is presented. -/
theorem portHandshake : Obligations.PortHandshake := by
  refine ⟨fun s w rest hs hr => ?_, fun s w rest hs hr => ?_, fun s rest hs => ?_, fun s hs => step_idle hs⟩
  · rw [step_command hs, if_pos hr]
  · rw [step_command hs, if_neg (by simp [hr])]
  · exact ⟨_, step_reset hs, initialise_atReset _, rfl, rfl, rfl⟩

/-- Settles O4, by the kind of event that is presented. -/
theorem stepRunsTheDecodedInstruction : Obligations.StepRunsTheDecodedInstruction := by
  refine ⟨fun s w i rest hs hp hd => ?_, fun s ctl x i rest hs hd => ?_⟩
  · rw [step_command hs, if_pos ((cmdReady_iff s).mpr hp), acceptCommand_of_ok hd]
  · cases hd
    exact step_bitEngine hs

/-- Settles O5: the outputs are the registers, and the digest port is read bit by bit. -/
theorem statusOutputsShowTheRegisters : Obligations.StatusOutputsShowTheRegisters := by
  intro s hr
  exact ⟨_, if_pos hr, rfl, fun h => by rw [h]; rfl, fun h => by rw [h]; rfl, fun h => by rw [h]; rfl,
    fun h => by rw [h]; rfl, code_toNat_le s.err, rfl, rfl,
    fun j k => digestPort_getLsbD s.D j.val k.val j.isLt k.isLt, fun h => ⟨h.invalid, digestPort_eq_zero h.digest⟩⟩

/-- Settles O58: the reset state is its own initialisation. -/
theorem resetSatisfiesTheInvariant : Obligations.ResetSatisfiesTheInvariant := initialise_inv State.reset

end Sys2Proof.Machine
end

section
/-! SUPPORT. The chunk buffer word by word: the word form of an overwritten bit, pushes that stay within one chunk as
overwritten bit addresses, and the byte lanes of a word. -/

namespace Sys2Proof.Machine

/-! ### One overwritten bit -/

/-- The word form of 20_memory.md R52: the addition does not carry, because bit `k` of its left term is 0. -/
theorem writeWordBit_eq_add (x : Word) (k : Nat) (b : Bool) :
    writeWordBit x k b = (x &&& ~~~(BitVec.twoPow 32 k)) + (if b then 1 else 0) * BitVec.twoPow 32 k := by
  rw [writeWordBit, ← BitVec.twoPow_eq]
  cases b with
  | false => simp
  | true =>
    have disjoint : (x &&& ~~~(BitVec.twoPow 32 k)) &&& BitVec.twoPow 32 k = 0#32 := by
      rw [BitVec.and_assoc, BitVec.and_comm (~~~_), BitVec.and_not_self]
      exact BitVec.and_zero
    rw [if_pos rfl, if_pos rfl, one_mul, BitVec.add_eq_or_of_and_eq_zero _ _ disjoint]

/-- `ChunkWriteBit` writes one word (20_memory.md R51, R52). -/
theorem chunkReadWord_chunkWriteBit (buf : Vector Word 16) (p : Fin 512) (b : Bool) (j : Fin 16) :
    chunkReadWord (chunkWriteBit buf p b) j =
      if j.val = p.val / 32 then writeWordBit (chunkReadWord buf j) (31 - p.val % 32) b else chunkReadWord buf j := by
  unfold chunkReadWord chunkWriteBit
  rw [Vector.getElem_set]
  by_cases hj : j.val = p.val / 32
  · rw [if_pos (show (wordIndex p).val = j.val from hj.symm), if_pos hj]
    simp only [hj, wordIndex, bitIndex]
  · rw [if_neg (show (wordIndex p).val ≠ j.val from Ne.symm hj), if_neg hj]

/-- A bit of a word of the buffer is the bit at its address (20_memory.md R51). -/
theorem chunkReadWord_getLsbD (buf : Vector Word 16) (j : Fin 16) (k : Fin 32) :
    (chunkReadWord buf j).getLsbD k.val = chunkReadBit buf ⟨32 * j.val + (31 - k.val), by omega⟩ :=
  chunkReadBit_at buf j.val j.isLt k.val k.isLt

/-- The bit of the addressed word at an address (20_memory.md R51). -/
theorem chunkReadWord_bitIndex (buf : Vector Word 16) (p : Fin 512) :
    (chunkReadWord buf ⟨p.val / 32, by omega⟩).getLsbD (31 - p.val % 32) = chunkReadBit buf p := rfl

/-! ### Pushes up to the end of the chunk -/

/-- Pushes that do not pass the end of the chunk overwrite the bit addresses from `pos` on, in the buffer, or when
they end on the boundary in the chunk that is compressed (41_ingestion.md R120). -/
theorem pushSeq_overwrites {bs : List Bool} {s : State} (h : s.pos.val + bs.length ≤ 512) :
    ∃ buf, (s.pos.val + bs.length ≠ 512 → (pushSeq bs s).chunk = buf) ∧
      (s.pos.val + bs.length = 512 → (pushSeq bs s).h = compress s.h buf) ∧
      ∀ q : Fin 512, chunkReadBit buf q =
        if s.pos.val ≤ q.val ∧ q.val < s.pos.val + bs.length then bs.getD (q.val - s.pos.val) false
        else chunkReadBit s.chunk q := by
  by_cases hfull : s.pos.val + bs.length = 512
  · obtain ⟨last, hh, -, hbit⟩ := pushSeq_fill hfull
    refine ⟨last, absurd hfull, fun _ => hh, fun q => ?_⟩
    rw [hbit]
    by_cases hq : q.val < s.pos.val
    · rw [if_pos hq, if_neg (by omega)]
    · rw [if_neg hq, if_pos (by omega)]
  · exact ⟨_, fun _ => rfl, fun hf => absurd hf hfull, pushSeq_within_bit (by omega)⟩

/-! ### Byte lanes -/

/-- The eight bit addresses from a multiple of 8 on are one byte lane of one word (20_memory.md R54). -/
theorem address_in_byte_iff_in_lane {p j k : Nat} (hp : p % 8 = 0) (hk : k < 32) :
    (p ≤ 32 * j + (31 - k) ∧ 32 * j + (31 - k) < p + 8) ↔
      (j = p / 32 ∧ 24 - 8 * (p % 32 / 8) ≤ k ∧ k ≤ 31 - 8 * (p % 32 / 8)) := by
  omega

/-- The place in the lane of the bit a byte's push puts at an address (20_memory.md R54). -/
theorem place_in_lane {p j k : Nat} (hp : p % 8 = 0) (hk : k < 32)
    (h : p ≤ 32 * j + (31 - k) ∧ 32 * j + (31 - k) < p + 8) :
    8 - 1 - (32 * j + (31 - k) - p) = k - (24 - 8 * (p % 32 / 8)) := by
  omega

/-! ### A sequence of words presented -/

theorem presenting_of_host {s : State} {ws : List CmdWord} (h : s.host = ws.map .command) : s.presenting ws = s := by
  rw [State.presenting, ← h]

/-- A collecting engine accepts the first word presented, with the others still presented (20_memory.md R61). -/
theorem step_presenting {s : State} (w : CmdWord) (ws : List CmdWord) (h : s.phase = .collecting) :
    step (s.presenting (w :: ws)) = acceptCommand w (s.presenting ws) :=
  (step_command (presenting_host s (w :: ws))).trans (if_pos ((cmdReady_iff _).mpr h))

end Sys2Proof.Machine
end

section
/-! SUPPORT. The obligations about the memory of the core (20_memory.md). -/

namespace Sys2Proof.Machine

/-- Settles O17: the word form of the write, and the write bit by bit. -/
theorem chunkWriteBitOverwritesOneBit : Obligations.ChunkWriteBitOverwritesOneBit := by
  refine fun buf p b => ⟨fun j => ?_, fun q => chunkReadBit_chunkWriteBit buf p q b⟩
  rw [chunkReadWord_chunkWriteBit, writeWordBit_eq_add]

/-- Settles O18: the written bit is read back at its word and place, and each bit has its place in the number. -/
theorem chunkBitAddresses : Obligations.ChunkBitAddresses := by
  refine ⟨fun buf p b => ?_, fun s b => ⟨fun h => ?_, fun h => ?_⟩, fun buf p => ?_⟩
  · rw [chunkReadWord_bitIndex, chunkReadBit_chunkWriteBit_self]
  · rw [pushBit_of_ne h]
  · rw [pushBit_of_eq h]
  · rw [chunkReadWord_bitIndex, chunkNumber_testBit_eq]

/-- Settles O33: the byte's eight bits overwrite the eight addresses from `pos` on, which are one lane. -/
theorem alignedByteFillsOneLane : Obligations.AlignedByteFillsOneLane := by
  intro value s hv he hl hp
  have hlen : (lowBits 8 value).length = 8 := bitsDown_length value 0 8
  obtain ⟨buf, hchunk, hh, hbit⟩ := pushSeq_overwrites (bs := lowBits 8 value) (s := s) (by omega)
  rw [hlen] at hchunk hh hbit
  refine ⟨_, buf, exec_push (i := .pushByte value) rfl (decide_eq_true hv) he (by rwa [hlen]),
    fun h => hchunk (by omega), fun h => hh (by omega), fun j k => ?_⟩
  rw [chunkReadWord_getLsbD, chunkReadWord_getLsbD, hbit]
  refine ite_congr (propext (address_in_byte_iff_in_lane hp k.isLt)) (fun hlane => ?_) fun _ => rfl
  have haddr := (address_in_byte_iff_in_lane hp k.isLt).mpr hlane
  have hplace : 32 * j.val + (31 - k.val) - s.pos.val < 8 := by omega
  rw [lowBits, bitsDown_getD _ _ _ _ hplace, Nat.zero_add, place_in_lane hp k.isLt haddr]

/-- Settles O35: each burst is one push of all its bits, and the bits are the same. -/
theorem fragmentationIndependence : Obligations.FragmentationIndependence := by
  intro as bs xs ys s has hbs hwa hwb hxy he hl
  refine ⟨pushSeq xs.flatten s, runBurst_push has hwa he hl, ?_, pushSeq_total_toNat (by omega)⟩
  rw [hxy] at hl ⊢
  exact runBurst_push hbs hwb he hl

/-- Settles O56: the first step accepts `w`, which leaves the words after it presented. -/
theorem commandsTakeEffectInOrder : Obligations.CommandsTakeEffectInOrder := by
  intro w ws s t hp ht
  obtain ⟨hhost, hphase⟩ := acceptCommand_host_phase ht
  rw [run_succ_of_step _ ((step_presenting w ws hp).trans ht), presenting_of_host hhost]
  exact ⟨rfl, hphase hp, hhost⟩

/-- Settles O6: the byte is a run of bits of one register word, which stands on the port most significant first. -/
theorem digestBytesAreBigEndian : Obligations.DigestBytesAreBigEndian := by
  intro D n k
  have hbyte : (digestByte D n).getLsbD k.val = D[n.val / 4].getLsbD (24 - 8 * (n.val % 4) + k.val) := by
    rw [digestByte, BitVec.getLsbD_extractLsb', decide_eq_true k.isLt, Bool.true_and]
  have hplace : 248 - 8 * n.val + k.val = 32 * (7 - n.val / 4) + (24 - 8 * (n.val % 4) + k.val) := by omega
  exact ⟨hbyte, by rw [hbyte, hplace, digestPort_getLsbD D (n.val / 4) _ (by omega) (by omega)]⟩

end Sys2Proof.Machine
end

section
/-! SUPPORT. The decoder (30_encoding.md R71 to R79) opcode by opcode, the two ways a word is rejected, what the
decoding order (R74) does with an accepted word, the bits of the pushes (R75) and the bursts of R81. -/

namespace Sys2Proof

/-! ### Command words opcode by opcode -/

/-- The rows of the opcode map (30_encoding.md R72). -/
theorem opcode_cases (op : BitVec 4) :
    (op = 0 ∨ 9 ≤ op.toNat) ∨ op = 0x1 ∨ op = 0x2 ∨ op = 0x3 ∨ op = 0x4 ∨ op = 0x5 ∨ op = 0x6 ∨ op = 0x7 ∨
      op = 0x8 := by
  revert op; decide

section
variable (aux : BitVec 12) (data : BitVec 32)

theorem decodeCommand_init : decodeCommand (commandWord 0x1 aux data) = requireZero (aux == 0 && data == 0) .init := by
  simp [decodeCommand]

theorem decodeCommand_pushBit : decodeCommand (commandWord 0x2 aux data) = requireZero (aux == 0) (.pushBit data) := by
  simp [decodeCommand]

theorem decodeCommand_pushBits : decodeCommand (commandWord 0x3 aux data) = .ok (.pushBits aux data) := by
  simp [decodeCommand]

theorem decodeCommand_pushValLo : decodeCommand (commandWord 0x4 aux data) = .ok (.pushValLo aux data) := by
  simp [decodeCommand]

theorem decodeCommand_pushValHi : decodeCommand (commandWord 0x5 aux data) = .ok (.pushValHi aux data) := by
  simp [decodeCommand]

theorem decodeCommand_pushByte : decodeCommand (commandWord 0x6 aux data) =
    requireZero (aux == 0) (.pushByte data) := by
  simp [decodeCommand]

theorem decodeCommand_pushWord : decodeCommand (commandWord 0x7 aux data) =
    requireZero (aux == 0) (.pushWord data) := by
  simp [decodeCommand]

theorem decodeCommand_hash : decodeCommand (commandWord 0x8 aux data) =
    requireZero (decide (aux.toNat ≤ 1) && data == 0) (.hash (aux.getLsbD 0)) := by
  simp [decodeCommand, ← hash_mbz_eq]

end

theorem decodeCommand_of_reservedOpcode {w : CmdWord} (h : Machine.reservedOpcode w) :
    decodeCommand w = .error .reservedOpcode := by
  have hop : (opField w).toNat = 0 ∨ 9 ≤ (opField w).toNat := h.imp_left fun h0 => by rw [h0]; rfl
  unfold decodeCommand
  split
  case h_9 => rfl
  all_goals omega

/-! ### Control words -/

theorem decodeBitEngine_rotr (n : Fin 32) : decodeBitEngine (controlWord 0 n) = .rotr n := by
  revert n; decide

theorem decodeBitEngine_shr (n : Fin 32) : decodeBitEngine (controlWord 1 n) = .shr n := by
  revert n; decide

theorem encode_decodeBitEngine (c : BeWord) : encode (decodeBitEngine c) = .be c := by
  revert c; decide

/-! ### Decoding an encoded instruction -/

/-- The word of an instruction has zero must-be-zero fields, so it decodes, to the fields it was composed of. -/
theorem decode_encode (i : Instr) : decode (encode i) = .ok i := by
  cases i with
  | init => exact decodeCommand_init 0 0
  | pushBit data => exact decodeCommand_pushBit 0 data
  | pushBits bit count => exact decodeCommand_pushBits bit count
  | pushValLo width value => exact decodeCommand_pushValLo width value
  | pushValHi width value => exact decodeCommand_pushValHi width value
  | pushByte value => exact decodeCommand_pushByte 0 value
  | pushWord value => exact decodeCommand_pushWord 0 value
  | hash preserve =>
    cases preserve with
    | false => exact decodeCommand_hash 0 0
    | true => exact decodeCommand_hash 1 0
  | rotr n => exact congrArg _ (decodeBitEngine_rotr n)
  | shr n => exact congrArg _ (decodeBitEngine_shr n)

/-- The one word of `INIT` (30_encoding.md R74 step 1). -/
theorem decodeCommand_initWord : decodeCommand 0x100000000000 = .ok .init := decode_encode .init

end Sys2Proof

namespace Sys2Proof.Machine

/-! ### Illegal words -/

theorem not_nonZeroMbz_of_reservedOpcode {w : CmdWord} (h : reservedOpcode w) : ¬ nonZeroMbz w := by
  unfold reservedOpcode at h
  rintro (⟨hop, _⟩ | ⟨hop | hop | hop, _⟩ | ⟨hop, _⟩) <;> rw [hop] at h <;> revert h <;> decide

/-- A word of a defined opcode is rejected only for its must-be-zero fields (30_encoding.md R74 step 4). -/
theorem mustBeZero_of_requireZero {w : CmdWord} {zero : Bool} {i : Instr} {r : Reject}
    (hd : decodeCommand w = requireZero zero i) (h : decodeCommand w = .error r) (hm : zero = false → nonZeroMbz w) :
    r = .mustBeZero ∧ nonZeroMbz w := by
  rw [hd] at h
  cases zero with
  | false => cases h; exact ⟨rfl, hm rfl⟩
  | true => cases h

/-- Everything a rejected word can be (30_encoding.md R76). -/
theorem decodeCommand_error_cases {w : CmdWord} {r : Reject} (h : decodeCommand w = .error r) :
    (r = .reservedOpcode ∧ reservedOpcode w) ∨ (r = .mustBeZero ∧ nonZeroMbz w) := by
  obtain ⟨op, aux, data, rfl⟩ : ∃ op aux data, w = commandWord op aux data := ⟨_, _, _, (commandWord_fields w).symm⟩
  rcases opcode_cases op with hop | rfl | rfl | rfl | rfl | rfl | rfl | rfl | rfl
  · have hr : reservedOpcode (commandWord op aux data) := by rwa [reservedOpcode, opField_commandWord]
    rw [decodeCommand_of_reservedOpcode hr] at h
    cases h
    exact .inl ⟨rfl, hr⟩
  · exact .inr (mustBeZero_of_requireZero (decodeCommand_init aux data) h fun hz => by
      simpa [nonZeroMbz, or_iff_not_imp_left] using hz)
  · exact .inr (mustBeZero_of_requireZero (decodeCommand_pushBit aux data) h fun hz => by
      simpa [nonZeroMbz] using hz)
  · rw [decodeCommand_pushBits] at h; cases h
  · rw [decodeCommand_pushValLo] at h; cases h
  · rw [decodeCommand_pushValHi] at h; cases h
  · exact .inr (mustBeZero_of_requireZero (decodeCommand_pushByte aux data) h fun hz => by
      simpa [nonZeroMbz] using hz)
  · exact .inr (mustBeZero_of_requireZero (decodeCommand_pushWord aux data) h fun hz => by
      simpa [nonZeroMbz] using hz)
  · exact .inr (mustBeZero_of_requireZero (decodeCommand_hash aux data) h fun hz => by
      simpa [nonZeroMbz, or_iff_not_imp_left] using hz)

theorem decodeCommand_of_nonZeroMbz {w : CmdWord} (h : nonZeroMbz w) : decodeCommand w = .error .mustBeZero := by
  cases hd : decodeCommand w with
  | ok i => exact absurd (.inr h) (not_illegal_of_decodeCommand hd)
  | error r =>
    rcases decodeCommand_error_cases hd with ⟨_, hr⟩ | ⟨rfl, _⟩
    · exact absurd h (not_nonZeroMbz_of_reservedOpcode hr)
    · rfl

/-! ### The decoding order -/

/-- A command other than `INIT` is ignored in the fault state (30_encoding.md R74 step 2, 60_exceptions.md R215). -/
theorem exec_of_fault {i : Instr} {s : State} (hi : i ≠ .init) (hbe : ∀ n, i ≠ .rotr n ∧ i ≠ .shr n)
    (he : s.err ≠ .noFault) : exec i s = .next s := by
  rcases instr_cases i with rfl | ⟨bits, hb⟩ | ⟨p, rfl⟩ | ⟨n, hn⟩
  · exact absurd rfl hi
  · rw [exec_ingestion hb, ingest_ignored he]
  · rw [exec_hash, whenOperational_of_fault he]
  · exact absurd hn (not_or.mpr (hbe n))

/-- In the fault state every word but the exact `INIT` is ignored (30_encoding.md R74 steps 1 and 2). -/
theorem acceptCommand_of_fault {w : CmdWord} {s : State} (hw : w ≠ 0x100000000000) (he : s.err ≠ .noFault) :
    acceptCommand w s = .next s := by
  rcases acceptCommand_cases w s with ⟨i, hd, e⟩ | ⟨r, _, e⟩
  · have hi : i ≠ .init := by rintro rfl; exact hw (word_of_init hd)
    have hbe : ∀ n, i ≠ .rotr n ∧ i ≠ .shr n := fun n =>
      ⟨by rintro rfl; exact (decodeCommand_ne_bitEngine w n).1 hd,
        by rintro rfl; exact (decodeCommand_ne_bitEngine w n).2 hd⟩
    rw [e, exec_of_fault hi hbe he]
  · rw [e, acceptIllegal, whenOperational_of_fault he]

/-- Only ingestion commands have a contract range to break (30_encoding.md R73). -/
theorem pushedBits_of_not_wellFormed {i : Instr} (h : i.wellFormed = false) : ∃ bits, pushedBits i = some bits := by
  rcases instr_cases i with rfl | hb | ⟨p, rfl⟩ | ⟨n, rfl | rfl⟩
  · cases h
  · exact hb
  · cases h
  · cases h
  · cases h

/-- A broken contract range (30_encoding.md R74 step 5). -/
theorem exec_range {i : Instr} {s : State} (hw : i.wellFormed = false) (he : s.err = .noFault) :
    exec i s = .next { s with err := .errRange } := by
  obtain ⟨bits, hb⟩ := pushedBits_of_not_wellFormed hw
  rw [exec_ingestion hb, hw, ingest_range he]; rfl

/-- A push that reaches the length limit (30_encoding.md R74 step 6). -/
theorem exec_length {i : Instr} {bits : List Bool} {s : State} (hb : pushedBits i = some bits)
    (hw : i.wellFormed = true) (he : s.err = .noFault) (hl : 2 ^ 32 ≤ s.total.toNat + bits.length) :
    exec i s = .next { s with err := .errLength } := by
  rw [exec_ingestion hb, hw, ingest_length he hl]; rfl

/-! ### The bits of the pushes -/

theorem lowBits_eq_map (n : Nat) (value : Word) :
    lowBits n value = (List.range n).map fun i => value.getLsbD (n - 1 - i) := by
  simp only [lowBits, bitsDown_eq_map, Nat.zero_add]

theorem highBits_eq_map {n : Nat} (hn : n ≤ 32) (value : Word) :
    highBits n value = (List.range n).map fun i => value.getLsbD (31 - i) := by
  rw [highBits, bitsDown_eq_map]
  refine List.map_congr_left fun i hi => ?_
  have hi : i < n := List.mem_range.mp hi
  rw [show 32 - n + (n - 1 - i) = 31 - i by omega]

/-! ### A message in one burst -/

/-- `INIT`, ingestion commands in range whose bits are a supported message, and a destructive `HASH` complete from
every state with the digest of the message (30_encoding.md R81, 42_finalization.md R158). -/
theorem runBurst_init_push_hash {is : List Instr} {xs : List (List Bool)} (h : is.map pushedBits = xs.map some)
    (hw : ∀ i ∈ is, i.wellFormed = true) (hl : xs.flatten.length < 2 ^ 32) (s : State) :
    ∃ t, runBurst (.init :: (is ++ [.hash false])) s = .next t ∧ t.err = .noFault ∧ t.digestValid = true ∧
      t.D = sha256 xs.flatten := by
  have hpush : runBurst is (initialise s) = .next (pushSeq xs.flatten (initialise s)) :=
    runBurst_push h hw rfl (by simpa using hl)
  have herr : (pushSeq xs.flatten (initialise s)).err = .noFault := pushSeq_err _ _
  have hcarries : (pushSeq xs.flatten (initialise s)).Carries ([] ++ xs.flatten) :=
    (initialise_carries s).pushSeq (by simpa using hl)
  refine ⟨hashEffect false (pushSeq xs.flatten (initialise s)), ?_, ?_, hashEffect_digestValid _ _,
    hashEffect_digest false hcarries⟩
  · rw [runBurst_cons (exec_init s), runBurst_append hpush, runBurst_cons (exec_hash_operational herr)]; rfl
  · rw [hashEffect_err, herr]

end Sys2Proof.Machine
end

section
/-! SUPPORT. The obligations about the encoding (30_encoding.md). -/

namespace Sys2Proof.Machine

/-- Settles O7, by the instruction. -/
theorem decodeOfEncode : Obligations.DecodeOfEncode := decode_encode

/-- Settles O8: a command word by its fields, a control word among the 64. -/
theorem encodeOfDecode : Obligations.EncodeOfDecode := by
  intro x i h
  cases x with
  | cmd w => exact encode_of_decodeCommand h
  | be c => cases h; exact encode_decodeBitEngine c

/-- Settles O9: a rejected word is illegal in one of two ways, which exclude each other. -/
theorem illegalWordsAreExactlyThese : Obligations.IllegalWordsAreExactlyThese := by
  refine fun w => ⟨⟨fun h => ?_, decodeCommand_of_reservedOpcode⟩, ⟨fun h => ?_, decodeCommand_of_nonZeroMbz⟩,
    fun h s he => ?_⟩
  · rcases decodeCommand_error_cases h with ⟨_, hr⟩ | ⟨hne, _⟩
    · exact hr
    · cases hne
  · rcases decodeCommand_error_cases h with ⟨hne, _⟩ | ⟨_, hm⟩
    · cases hne
    · exact hm
  · rw [acceptCommand_of_illegal h, if_pos he]

/-- Settles O13, step by step of the decoding order. -/
theorem decodingOrder : Obligations.DecodingOrder := by
  refine fun w s => ⟨fun hw => ?_, acceptCommand_of_fault, fun _ he => ⟨fun h => ?_, fun i hd => ?_⟩⟩
  · rw [hw, acceptCommand_of_ok decodeCommand_initWord]
  · rw [acceptCommand_of_illegal h, if_pos he]
  · rw [acceptCommand_of_ok hd]
    refine ⟨fun hr => exec_range hr he, fun hr bits hb => ⟨exec_length hb hr he, exec_push hb hr he⟩, ?_⟩
    rintro p rfl
    exact exec_hash_operational he

/-- Settles O44: both bursts are `INIT`, pushes in range and `HASH`. -/
theorem hashofGivesTheDigest : Obligations.HashofGivesTheDigest := by
  refine ⟨fun vs s hr hl => ?_, fun bs s hr hl => ?_⟩
  · have hw : ∀ i ∈ pushBytes vs, i.wellFormed = true := by
      simpa [pushBytes, Instr.wellFormed] using hr
    have hbits : (pushBytes vs).map pushedBits =
        (vs.map fun v => (List.range 8).map fun i => v.getLsbD (7 - i)).map some := by
      simp only [pushBytes, List.map_map]
      exact List.map_congr_left fun v _ => congrArg some (lowBits_eq_map 8 v)
    rw [List.flatMap_def]
    exact runBurst_init_push_hash hbits hw (by simpa [Function.comp_def, mul_comm] using hl) s
  · have hw : ∀ i ∈ pushBitseq bs, i.wellFormed = true := by
      simpa [pushBitseq, Instr.wellFormed] using hr
    have hbits : (pushBitseq bs).map pushedBits = (bs.map fun b => [b.getLsbD 0]).map some := by
      simp [pushBitseq, pushedBits]
    have hflat : (bs.map fun b => [b.getLsbD 0]).flatten = bs.map fun b => b.getLsbD 0 := by
      rw [← List.flatMap_def, ← List.map_eq_flatMap]
    rw [← hflat]
    exact runBurst_init_push_hash hbits hw (by rwa [hflat, List.length_map]) s

/-- Settles O10: the 64 control words one by one; a command word that decodes is the word of a command. -/
theorem bitEngineControlWords : Obligations.BitEngineControlWords := by
  have control : ∀ n : Fin 32, decode (.be (BitVec.ofNat 6 n.val)) = .ok (.rotr n) ∧
      decode (.be (BitVec.ofNat 6 (32 + n.val))) = .ok (.shr n) := by decide
  exact ⟨control, decodeCommand_ne_bitEngine⟩

/-- Settles O11: each word is the encoding of its instruction. -/
theorem sampleWordsDecode : Obligations.SampleWordsDecode :=
  ⟨decode_encode .init, decode_encode (.pushBit 1), decode_encode (.pushBits 1 5),
    decode_encode (.pushValLo 3 0xfffffff5), decode_encode (.pushValHi 3 0xa0000000), decode_encode (.pushByte 0x61),
    decode_encode (.pushWord 0x61626380), decode_encode (.hash true), decode_encode (.rotr 13),
    decode_encode (.shr 10)⟩

/-- Settles O12: the word of a line is the encoding of the command it names. -/
theorem assembledLinesDecode : Obligations.AssembledLinesDecode :=
  ⟨decode_encode .init, fun b => decode_encode (.pushBit b), fun b count => decode_encode (.pushBits b count),
    fun value width => decode_encode (.pushValLo width value),
    fun value width => decode_encode (.pushValHi width value),
    fun value => decode_encode (.pushByte value), fun value => decode_encode (.pushWord value),
    decode_encode (.hash false), decode_encode (.hash true), fun _ => rfl⟩

/-- Settles O15: the two meanings write BitEngine's output and nothing else. -/
theorem bitEngineEvaluation : Obligations.BitEngineEvaluation := fun n s => ⟨exec_rotr n s, exec_shr n s⟩

/-- Settles O20: the value pushes as maps over places. -/
theorem pushedBitSequences : Obligations.PushedBitSequences :=
  ⟨fun _ => rfl, fun _ _ => rfl, fun width value => congrArg some (lowBits_eq_map width.toNat value),
    fun _ value hw => congrArg some (highBits_eq_map hw value), fun value => congrArg some (lowBits_eq_map 8 value),
    fun value => congrArg some (lowBits_eq_map 32 value)⟩

end Sys2Proof.Machine
end

section
/-! SUPPORT. The rotation as a number and against the shift, what the rotation composes to and distributes over
(40_bitengine.md R100, R103), and the same for the shift (R101, R103). -/

namespace Sys2Proof.Machine

/-! ### The rotation by bits -/

theorem rotr_getElem (x : Word) (n : Fin 32) (i : Nat) (hi : i < 32) :
    (rotr x n)[i] = x[(i + n.val) % 32]'(Nat.mod_lt _ (by decide)) := by
  rw [← BitVec.getLsbD_eq_getElem, rotr_getLsbD x n i hi, BitVec.getLsbD_eq_getElem]

theorem rotr_zero (x : Word) : rotr x 0 = x := by
  ext i hi
  simp [rotr_getElem, Nat.mod_eq_of_lt hi]

theorem rotr_zero_word (n : Fin 32) : rotr 0 n = 0 := by
  ext i hi
  simp [rotr_getElem]

theorem rotr_allOnes (n : Fin 32) : rotr (BitVec.allOnes 32) n = BitVec.allOnes 32 := by
  ext i hi
  rw [rotr_getElem, BitVec.getElem_allOnes, BitVec.getElem_allOnes]

/-- Both read each bit from the place below it, and bit 0 from the top of the word. -/
theorem rotr_thirtyOne (x : Word) : rotr x 31 = x.rotateLeft 1 := by
  ext i hi
  rw [rotr_getElem, BitVec.getElem_rotateLeft]
  split
  · have htop : i = 0 := by omega
    simp [htop]
  · have hbelow : (i + 31) % 32 = i - 1 := by omega
    simp [hbelow]

theorem rotr_rotr (x : Word) (a b : Fin 32) : rotr (rotr x a) b = rotr x (a + b) := by
  ext i hi
  have hplace : ((i + b.val) % 32 + a.val) % 32 = (i + (a + b).val) % 32 := by rw [Fin.val_add]; omega
  simp only [rotr_getElem, hplace]

theorem rotr_iterate (n : Fin 32) (k : Nat) (x : Word) : (fun y => rotr y n)^[k] x = rotr x (k • n) := by
  induction k with
  | zero => rw [zero_nsmul, rotr_zero]; rfl
  | succ k ih => rw [Function.iterate_succ_apply', ih, rotr_rotr, succ_nsmul]

theorem rotr_xor (x y : Word) (n : Fin 32) : rotr (x ^^^ y) n = rotr x n ^^^ rotr y n := by
  ext i hi
  simp [rotr_getElem]

theorem rotr_and (x y : Word) (n : Fin 32) : rotr (x &&& y) n = rotr x n &&& rotr y n := by
  ext i hi
  simp [rotr_getElem]

theorem rotr_not (x : Word) (n : Fin 32) : rotr (~~~x) n = ~~~(rotr x n) := by
  ext i hi
  simp [rotr_getElem]

/-- The places a rotation reads from, in the order it reads them, are the places of the word rotated. -/
theorem map_rotrPlace_range (n : Nat) : (List.range 32).map (fun i => (i + n) % 32) = (List.range 32).rotate n :=
  List.ext_getElem (by simp) fun i _ _ => by simp [List.getElem_rotate]

/-- A rotation moves the 1 bits and keeps their number. -/
theorem rotr_countP (x : Word) (n : Fin 32) :
    (List.range 32).countP (fun i => (rotr x n).getLsbD i) = (List.range 32).countP (fun i => x.getLsbD i) := calc
  _ = (List.range 32).countP ((fun i => x.getLsbD i) ∘ fun i => (i + n.val) % 32) :=
    List.countP_congr fun i hi => by rw [rotr_getLsbD x n i (List.mem_range.mp hi)]; rfl
  _ = ((List.range 32).rotate n.val).countP (fun i => x.getLsbD i) := by
    rw [← List.countP_map, map_rotrPlace_range]
  _ = _ := (List.rotate_perm _ _).countP_eq _

/-! ### The rotation and the shift as numbers -/

theorem shr_toNat_lt (x : Word) (n : Fin 32) : (shr x n).toNat < 2 ^ (32 - n.val) :=
  BitVec.toNat_ushiftRight_lt x n.val n.isLt.le

/-- The bits that wrap around, as a number. -/
theorem toNat_shiftLeft_rest (x : Word) (n : Fin 32) :
    (x <<< (32 - n.val)).toNat = (x.toNat % 2 ^ n.val) * 2 ^ (32 - n.val) := by
  have hcut : 2 ^ 32 = 2 ^ n.val * 2 ^ (32 - n.val) := (pow_mul_pow_sub 2 n.isLt.le).symm
  rw [BitVec.toNat_shiftLeft, Nat.shiftLeft_eq, hcut, Nat.mul_mod_mul_right]

/-- A rotation is the shift and, above it, the bits that wrap around (40_bitengine.md R103). -/
theorem rotr_toNat_eq_shr (x : Word) (n : Fin 32) :
    (rotr x n).toNat = (shr x n).toNat + (x.toNat % 2 ^ n.val) * 2 ^ (32 - n.val) := by
  have hor : rotr x n = x <<< (32 - n.val) ||| shr x n := by
    rw [rotr, BitVec.rotateRight_def, Nat.mod_eq_of_lt n.isLt, BitVec.or_comm]; rfl
  rw [hor, BitVec.toNat_or, toNat_shiftLeft_rest, ← Nat.shiftLeft_eq,
    ← Nat.shiftLeft_add_eq_or_of_lt (shr_toNat_lt x n), add_comm]

/-! ### The shift -/

theorem shr_zero (x : Word) : shr x 0 = x := BitVec.ushiftRight_zero x

theorem shr_shr (x : Word) (a b : Fin 32) : shr (shr x a) b = x >>> (a.val + b.val) :=
  (BitVec.shiftRight_add x a.val b.val).symm

theorem shr_xor (x y : Word) (n : Fin 32) : shr (x ^^^ y) n = shr x n ^^^ shr y n :=
  BitVec.ushiftRight_xor_distrib x y n.val

theorem shr_and (x y : Word) (n : Fin 32) : shr (x &&& y) n = shr x n &&& shr y n :=
  BitVec.ushiftRight_and_distrib x y n.val

/-- The places a shift vacates read 0 (40_bitengine.md R101). -/
theorem shr_getLsbD_of_le (x : Word) (n : Fin 32) {i : Nat} (h : 32 ≤ n.val + i) : (shr x n).getLsbD i = false := by
  rw [shr_getLsbD, BitVec.getLsbD_of_ge _ _ h]

end Sys2Proof.Machine
end

section
/-! SUPPORT. The obligations about BitEngine (40_bitengine.md). -/

namespace Sys2Proof.Machine

/-- Settles O14: the rotation by its bits, the shift by its number. -/
theorem rotateAndShift : Obligations.RotateAndShift := by
  refine fun x n => ⟨⟨?formula, fun i => rotr_getLsbD x n i.val i.isLt, rotr_zero x, rotr_zero_word n,
    rotr_allOnes n, rotr_countP x n, rotr_thirtyOne x⟩, shr_toNat x n, fun i => ?shrBit, shr_zero x, shr_toNat_lt x n⟩
  case formula => rw [rotr_toNat_eq_shr, shr_toNat]
  case shrBit =>
    split
    · rw [shr_getLsbD, Nat.add_comm]
    · exact shr_getLsbD_of_le x n (by omega)

/-- Settles O16: the rotation's amounts add modulo 32, the shift's add until nothing of the word is left. -/
theorem bitEngineLaws : Obligations.BitEngineLaws := by
  refine ⟨rotr_zero, fun x n => ?full, rotr_rotr, fun x n i h => shr_getLsbD_of_le x n (by omega),
    fun x a b => ⟨?shrNumber, fun h => shr_shr x a b, fun h => ?gone⟩, fun x y n => ⟨rotr_toNat_eq_shr x n,
      rotr_xor x y n, rotr_and x y n, rotr_not x n, shr_xor x y n, shr_and x y n⟩⟩
  case full =>
    have hturns : 32 • n = 0 := by revert n; decide
    rw [rotr_iterate, hturns, rotr_zero]
  case shrNumber => rw [shr_shr, BitVec.toNat_ushiftRight, Nat.shiftRight_eq_div_pow]
  case gone => rw [shr_shr]; exact BitVec.ushiftRight_eq_zero h

end Sys2Proof.Machine
end

section
/-! SUPPORT. Ingestion commands by their bits: two commands of the same bits, a burst of commands against one command,
the words of the commands, and the chunk buffer as a number and word by word (41_ingestion.md). -/

namespace Sys2Proof.Machine

/-! ### Commands by their bits -/

/-- What an ingestion command does is determined by its bits and by whether its operands are in range
(41_ingestion.md R121, R132). -/
theorem exec_ingestion_congr {i j : Instr} {bits : List Bool} {s : State} (hi : pushedBits i = some bits)
    (hj : pushedBits j = some bits) (hw : i.wellFormed = j.wellFormed) : exec i s = exec j s := by
  rw [exec_ingestion hi, exec_ingestion hj, hw]

theorem exec_ingestion_of_fault {i : Instr} {bits : List Bool} {s : State} (hb : pushedBits i = some bits)
    (he : s.err ≠ .noFault) : exec i s = .next s := by
  rw [exec_ingestion hb, ingest_ignored he]

/-- A burst of ingestion commands is ignored in the fault state (60_exceptions.md R215). -/
theorem runBurst_of_fault {is : List Instr} {xs : List (List Bool)} {s : State}
    (h : is.map pushedBits = xs.map some) (he : s.err ≠ .noFault) : runBurst is s = .next s := by
  induction is generalizing xs with
  | nil => rfl
  | cons i is ih =>
    obtain ⟨x, xs, rfl⟩ : ∃ x ys, xs = x :: ys := List.exists_cons_of_ne_nil (by rintro rfl; cases h)
    simp only [List.map_cons, List.cons.injEq] at h
    rw [runBurst_cons (exec_ingestion_of_fault h.left he), ih h.right]

/-- A burst of ingestion commands in range that passes no length limit is the one command of all its bits
(41_ingestion.md R132). -/
theorem runBurst_eq_exec {is : List Instr} {xs : List (List Bool)} {i : Instr} {s : State}
    (h : is.map pushedBits = xs.map some) (hws : ∀ j ∈ is, j.wellFormed = true)
    (hb : pushedBits i = some xs.flatten) (hw : i.wellFormed = true)
    (hl : s.total.toNat + xs.flatten.length < 2 ^ 32) : runBurst is s = exec i s := by
  by_cases he : s.err = .noFault
  · rw [runBurst_push h hws he hl, exec_push hb hw he hl]
  · rw [runBurst_of_fault h he, exec_ingestion_of_fault hb he]

/-- Two `PUSH_BITS` with a bit operand above 1 are one: the first faults and the second is ignored
(41_ingestion.md R132). -/
theorem runBurst_pushBits_of_range {bit : BitVec 12} (hbit : 1 < bit.toNat) (m n k : BitVec 32) (s : State) :
    runBurst [.pushBits bit m, .pushBits bit n] s = exec (.pushBits bit k) s := by
  have hw (c : BitVec 32) : (Instr.pushBits bit c).wellFormed = false := decide_eq_false (by omega)
  by_cases he : s.err = .noFault
  · rw [runBurst_cons (exec_range (hw m) he), runBurst_cons (exec_ingestion_of_fault rfl (by simp)),
      exec_range (hw k) he]; rfl
  · rw [runBurst_of_fault (xs := [_, _]) rfl he, exec_ingestion_of_fault rfl he]

/-! ### The words of the commands -/

/-- The word of an instruction runs it (30_encoding.md R74 step 7). -/
theorem acceptCommand_encode {i : Instr} {w : CmdWord} (h : encode i = .cmd w) (s : State) :
    acceptCommand w s = exec i s :=
  acceptCommand_of_ok (by rw [← decode_encode i, h]; rfl) s

/-- `PUSH_BIT`, `PUSH_BYTE` and `PUSH_WORD` must have a zero field `aux` (30_encoding.md R73, R76). -/
theorem acceptCommand_of_aux {op : BitVec 4} (hop : op = 0x2 ∨ op = 0x6 ∨ op = 0x7) {aux : BitVec 12} (haux : aux ≠ 0)
    (data : BitVec 32) {s : State} (he : s.err = .noFault) :
    acceptCommand (commandWord op aux data) s = .next { s with err := .errIllegal } := by
  have hm : nonZeroMbz (commandWord op aux data) :=
    .inr (.inl ⟨by rwa [opField_commandWord], by rwa [auxField_commandWord]⟩)
  rw [acceptCommand_of_illegal (.inr hm), if_pos he]

/-! ### The value pushes -/

theorem widthInRange_eq_true_iff (width : BitVec 12) :
    widthInRange width = true ↔ 1 ≤ width.toNat ∧ width.toNat ≤ 32 :=
  (Bool.and_eq_true_iff).trans (and_congr decide_eq_true_iff decide_eq_true_iff)

theorem widthInRange_eq_false_iff (width : BitVec 12) :
    widthInRange width = false ↔ width.toNat = 0 ∨ 32 < width.toNat := by
  rw [← Bool.not_eq_true, widthInRange_eq_true_iff]; omega

@[simp] theorem lowBits_length (n : Nat) (value : Word) : (lowBits n value).length = n := bitsDown_length value 0 n

@[simp] theorem highBits_length (n : Nat) (value : Word) : (highBits n value).length = n :=
  bitsDown_length value (32 - n) n

/-- A run of bits does not depend on the other bits of its word, nor on where in the word it stands. -/
theorem bitsDown_congr {x y : Word} {a b n : Nat} (h : ∀ k < n, x.getLsbD (a + k) = y.getLsbD (b + k)) :
    bitsDown x a n = bitsDown y b n := by
  induction n with
  | zero => rfl
  | succ n ih => rw [bitsDown, bitsDown, h n n.lt_succ_self, ih fun k hk => h k (hk.trans n.lt_succ_self)]

theorem lowBits_congr {n : Nat} {x y : Word} (h : ∀ k < n, x.getLsbD k = y.getLsbD k) : lowBits n x = lowBits n y :=
  bitsDown_congr (by simpa only [Nat.zero_add] using h)

theorem highBits_congr {n : Nat} {x y : Word} (h : ∀ k, 32 - n ≤ k → x.getLsbD k = y.getLsbD k) :
    highBits n x = highBits n y :=
  bitsDown_congr fun k _ => h _ (Nat.le_add_right _ k)

/-- The high end of a value is the low end of the value shifted down (41_ingestion.md R126). -/
theorem highBits_eq_lowBits_shift (n : Nat) (value : Word) : highBits n value = lowBits n (value >>> (32 - n)) :=
  bitsDown_congr fun k _ => by rw [BitVec.getLsbD_ushiftRight, Nat.zero_add]

/-- The bits of four bytes in order are the bits of the word they make, first byte most significant
(41_ingestion.md R132). -/
theorem lowBits_bytes (b0 b1 b2 b3 : BitVec 8) :
    lowBits 8 (b0.setWidth 32) ++ (lowBits 8 (b1.setWidth 32) ++ (lowBits 8 (b2.setWidth 32) ++
      lowBits 8 (b3.setWidth 32))) = lowBits 32 (b0 ++ b1 ++ b2 ++ b3) := by
  have hbyte (b : BitVec 8) (lo : Nat)
      (h : ∀ k < 8, (b0 ++ b1 ++ b2 ++ b3 : BitVec 32).getLsbD (lo + k) = b.getLsbD k) :
      lowBits 8 (b.setWidth 32) = bitsDown (b0 ++ b1 ++ b2 ++ b3 : BitVec 32) lo 8 :=
    bitsDown_congr fun k hk => by
      rw [h k hk, Nat.zero_add, BitVec.getLsbD_setWidth, decide_eq_true (by omega), Bool.true_and]
  rw [hbyte b0 24, hbyte b1 16, hbyte b2 8, hbyte b3 0, lowBits, bitsDown_add _ 0 8 24, bitsDown_add _ 8 8 16,
    bitsDown_add _ 16 8 8]
  · simp
  -- Each byte stands at its own eight places of the word.
  all_goals
    intro k hk
    simp only [BitVec.getLsbD_append]
    grind

/-! ### Repeated bits -/

theorem pushSeq_replicate (b : Bool) (n : Nat) (s : State) : pushSeq (List.replicate n b) s = (pushBit b)^[n] s := by
  induction n generalizing s with
  | zero => rfl
  | succ n ih => rw [List.replicate_succ, pushSeq_cons, ih, Function.iterate_succ_apply]

/-! ### The boundary -/

/-- `pushBit` compresses exactly when it fills the buffer (41_ingestion.md R120). -/
theorem add_one_toNat_mod_eq_zero_iff (s : State) : (s.total + 1).toNat % 512 = 0 ↔ s.pos.val = 511 := by
  rw [add_one_toNat_mod, pos_val]; omega

theorem pushBit_pos_of_eq {b : Bool} {s : State} (h : s.pos.val = 511) : (pushBit b s).pos = 0 :=
  Fin.ext (by rw [pushBit_pos, h]; rfl)

/-! ### One word of the buffer -/

theorem chunkReadBit_set (buf : Vector Word 16) (value : Word) {j : Nat} (hj : j < 16) (q : Fin 512) :
    chunkReadBit (buf.set j value hj) q =
      if q.val / 32 = j then value.getLsbD (31 - q.val % 32) else chunkReadBit buf q := by
  rw [chunkReadBit, Vector.getElem_set]
  by_cases h : q.val / 32 = j
  · rw [if_pos h, if_pos (show j = (wordIndex q).val from h.symm)]; rfl
  · rw [if_neg h, if_neg (show j ≠ (wordIndex q).val from Ne.symm h)]; rfl

/-- The bits of a word at the 32 addresses from a multiple of 32 on are that word in the buffer
(41_ingestion.md R128). -/
theorem eq_set_of_word_written {buf old : Vector Word 16} {value : Word} {p : Nat} (hp : p < 512)
    (halign : p % 32 = 0)
    (h : ∀ q : Fin 512, chunkReadBit buf q =
      if p ≤ q.val ∧ q.val < p + 32 then (lowBits 32 value).getD (q.val - p) false else chunkReadBit old q) :
    buf = old.set (p / 32) value (by omega) := by
  refine chunk_ext fun q => ?_
  rw [h, chunkReadBit_set]
  have hword : p ≤ q.val ∧ q.val < p + 32 ↔ q.val / 32 = p / 32 := by omega
  refine ite_congr (propext hword) (fun hq => ?_) fun _ => rfl
  have hplace : 0 + (32 - 1 - (q.val - p)) = 31 - q.val % 32 := by omega
  rw [lowBits, bitsDown_getD _ _ _ _ (by omega), hplace]

/-- Below the last word an aligned word push sets one word of the buffer (41_ingestion.md R128). -/
theorem pushSeq_word_aligned {value : Word} {s : State} (halign : s.pos.val % 32 = 0) (hne : s.pos.val ≠ 480) :
    pushSeq (lowBits 32 value) s = { s with
      chunk := s.chunk.set (s.pos.val / 32) value (by omega), total := s.total + 32 } := by
  have hp := s.pos.isLt
  have hwithin : s.pos.val + (lowBits 32 value).length ≤ 511 := by rw [lowBits_length]; omega
  have hchunk := eq_set_of_word_written hp halign (by simpa using pushSeq_within_bit hwithin)
  rw [pushSeq_within hwithin, hchunk, lowBits_length]; rfl

/-- At the last word an aligned word push completes the chunk (41_ingestion.md R128). -/
theorem pushSeq_word_fill {value : Word} {s : State} (hp : s.pos.val = 480) :
    (pushSeq (lowBits 32 value) s).h = compress s.h (s.chunk.set 15 value) ∧
      (pushSeq (lowBits 32 value) s).chunk = zeroChunk ∧ (pushSeq (lowBits 32 value) s).pos = 0 := by
  obtain ⟨last, hh, hzero, hbit⟩ := pushSeq_fill (bs := lowBits 32 value) (s := s) (by rw [lowBits_length, hp])
  have hlast : last = s.chunk.set 15 value := by
    refine eq_set_of_word_written (p := 480) (by omega) rfl fun q => ?_
    rw [hbit, hp]
    by_cases hq : q.val < 480
    · rw [if_pos hq, if_neg (by omega)]
    · rw [if_neg hq, if_pos (by omega)]
  exact ⟨by rw [hh, hlast], hzero, Fin.ext (by rw [pushSeq_pos, lowBits_length, hp]; rfl)⟩

/-! ### The buffer as a number -/

theorem bitsValue_append (as bs : List Bool) :
    bitsValue (as ++ bs) = bitsValue as * 2 ^ bs.length + bitsValue bs := by
  induction bs using List.reverseRecOn with
  | nil => simp [bitsValue]
  | append_singleton bs b ih =>
    rw [← List.append_assoc, bitsValue_concat, bitsValue_concat, ih, List.length_append, List.length_singleton,
      pow_succ]
    ring

theorem bitsValue_lt (bs : List Bool) : bitsValue bs < 2 ^ bs.length := by
  induction bs using List.reverseRecOn with
  | nil => simp [bitsValue]
  | append_singleton bs b ih =>
    have hb := b.toNat_lt
    rw [bitsValue_concat, List.length_append, List.length_singleton, pow_succ]
    omega

theorem bitsValue_testBit_of_le {bs : List Bool} {i : Nat} (h : bs.length ≤ i) :
    (bitsValue bs).testBit i = false :=
  Nat.testBit_lt_two_pow ((bitsValue_lt bs).trans_le (Nat.pow_le_pow_right (by decide) h))

theorem chunkNumber_testBit_of_le (buf : Vector Word 16) {i : Nat} (h : 512 ≤ i) :
    (chunkNumber buf).testBit i = false := by
  rw [chunkNumber, foldWords_testBit, Vector.length_toList, if_neg (by omega), Nat.zero_testBit]

/-- The buffer that holds a bit string is its number, moved up to the first bit address (20_memory.md R51). -/
theorem chunkNumber_chunkOf {m : List Bool} (h : m.length ≤ 512) :
    chunkNumber (chunkOf m) = bitsValue m * 2 ^ (512 - m.length) := by
  refine Nat.eq_of_testBit_eq fun i => ?_
  rw [Nat.testBit_mul_two_pow]
  by_cases hi : i < 512
  · have haddr : (chunkNumber (chunkOf m)).testBit i = m.getD (511 - i) false := by
      rw [← chunkReadBit_chunkOf m ⟨511 - i, by omega⟩, ← chunkNumber_testBit_eq, Nat.sub_sub_self (by omega)]
    rw [haddr]
    by_cases hm : 512 - m.length ≤ i
    · have hplace : m.length - 1 - (i - (512 - m.length)) = 511 - i := by omega
      rw [bitsValue_testBit _ _ (by omega), hplace, decide_eq_true hm, Bool.true_and]
    · rw [decide_eq_false hm, Bool.false_and, List.getD_eq_default _ _ (by omega)]
  · rw [chunkNumber_testBit_of_le _ (by omega), bitsValue_testBit_of_le (by omega), Bool.and_false]

/-- The closed form of 41_ingestion.md R131 for pushes that stay below the boundary. -/
theorem chunkNumber_pushSeq {bs : List Bool} {s : State} (h : s.pos.val + bs.length ≤ 511)
    (htail : ∀ p : Fin 512, s.pos ≤ p → chunkReadBit s.chunk p = false) :
    chunkNumber (pushSeq bs s).chunk =
      chunkNumber s.chunk + bitsValue bs * 2 ^ (512 - s.pos.val - bs.length) := by
  have hlen : s.bufferedBits.length = s.pos.val := by simp [State.bufferedBits]
  have hall : (s.bufferedBits ++ bs).length = s.pos.val + bs.length := by rw [List.length_append, hlen]
  have fed := Fed.of_tailZero htail
  have hold := fed.buffered
  have hnew := (fed.pushSeq bs).buffered
  rw [hlen, Nat.div_eq_of_lt (by omega)] at hold
  rw [hall, Nat.div_eq_of_lt (by omega)] at hnew
  have hpow : 2 ^ (512 - s.pos.val) = 2 ^ bs.length * 2 ^ (512 - s.pos.val - bs.length) :=
    (pow_mul_pow_sub 2 (by omega)).symm
  rw [hnew, hold, Nat.mul_zero, List.drop_zero, List.drop_zero, chunkNumber_chunkOf (by omega),
    chunkNumber_chunkOf (by omega), bitsValue_append, hall, hlen, hpow, Nat.sub_sub]
  ring

end Sys2Proof.Machine
end

section
/-! SUPPORT. The obligations about ingestion (41_ingestion.md). -/

namespace Sys2Proof.Machine

/-- Settles O19: the new count is a multiple of 512 exactly when the buffer is full. -/
theorem pushBitMicroOperation : Obligations.PushBitMicroOperation := by
  intro b s
  rw [ne_eq, add_one_toNat_mod_eq_zero_iff]
  exact ⟨pushBit_of_ne, pushBit_of_eq⟩

/-- Settles O21: a command that completes is its pushes. -/
theorem ingestionIsRepeatedPushBit : Obligations.IngestionIsRepeatedPushBit := fun _ _ _ => exec_push

/-- Settles O22: a push of one bit. -/
theorem pushBitCommand : Obligations.PushBitCommand := by
  refine fun data s he => ⟨fun hr hl => ?effect, fun hr => exec_range (decide_eq_false (by omega)) he,
    fun hr hl => exec_length rfl (decide_eq_true hr) he hl, acceptCommand_encode rfl s,
    fun aux haux => acceptCommand_of_aux (.inl rfl) haux data he⟩
  have heffect : exec (.pushBit data) s = .next (pushBit (data.getLsbD 0) s) :=
    exec_push (bits := [data.getLsbD 0]) rfl (decide_eq_true hr) he hl
  exact ⟨heffect, fun hp => ⟨_, heffect, pushBit_pos_of_eq hp, by rw [pushBit_of_eq hp]⟩⟩

/-- Settles O23: a push of one bit repeated. -/
theorem pushBitsCommand : Obligations.PushBitsCommand := by
  intro bit count s he
  have heffect (hr : bit.toNat ≤ 1) (hl : s.total.toNat + count.toNat < 2 ^ 32) :
      exec (.pushBits bit count) s = .next ((pushBit (bit.getLsbD 0))^[count.toNat] s) := by
    rw [exec_push (i := .pushBits bit count) rfl (decide_eq_true hr) he (by rwa [List.length_replicate]),
      pushSeq_replicate]
  refine ⟨heffect, fun hr => exec_range (decide_eq_false (by omega)) he, fun hr hl => ?length, fun hr hc hl => ?none,
    acceptCommand_encode rfl s⟩
  case length => exact exec_length rfl (decide_eq_true hr) he (by rwa [List.length_replicate])
  case none => subst hc; exact heffect hr hl

/-- Settles O24: a push of the low end. -/
theorem pushValLoCommand : Obligations.PushValLoCommand := by
  refine fun width value s he => ⟨fun h1 h32 hl => ?effect,
    fun hr => exec_range ((widthInRange_eq_false_iff width).mpr hr) he, fun h1 h32 hl => ?length,
    fun value' hv => ?ignored, acceptCommand_encode rfl s⟩
  case effect =>
    exact exec_push (congrArg some (lowBits_eq_map width.toNat value))
      ((widthInRange_eq_true_iff width).mpr ⟨h1, h32⟩) he (by simpa using hl)
  case length =>
    exact exec_length rfl ((widthInRange_eq_true_iff width).mpr ⟨h1, h32⟩) he (by rwa [lowBits_length])
  case ignored => exact exec_ingestion_congr (congrArg some (lowBits_congr hv)) rfl rfl

/-- Settles O25: a push of the high end, which is the low end of the value shifted down. -/
theorem pushValHiCommand : Obligations.PushValHiCommand := by
  refine fun width value s he => ⟨fun h1 h32 hl => ?effect,
    fun hr => exec_range ((widthInRange_eq_false_iff width).mpr hr) he, fun h1 h32 hl => ?length,
    fun value' hv => ?ignored, fun h1 h32 => ?shift, acceptCommand_encode rfl s⟩
  case effect =>
    exact exec_push (congrArg some (highBits_eq_map h32 value))
      ((widthInRange_eq_true_iff width).mpr ⟨h1, h32⟩) he (by simpa using hl)
  case length =>
    exact exec_length rfl ((widthInRange_eq_true_iff width).mpr ⟨h1, h32⟩) he (by rwa [highBits_length])
  case ignored => exact exec_ingestion_congr (congrArg some (highBits_congr hv)) rfl rfl
  case shift => exact exec_ingestion_congr (congrArg some (highBits_eq_lowBits_shift width.toNat value)) rfl rfl

/-- Settles O26: a push of the low eight bits. -/
theorem pushByteCommand : Obligations.PushByteCommand := fun value s he =>
  ⟨fun hr hl => exec_push (congrArg some (lowBits_eq_map 8 value)) (decide_eq_true hr) he (by simpa using hl),
    fun hr => exec_range (decide_eq_false (by omega)) he,
    fun hr hl => exec_length rfl (decide_eq_true hr) he (by rwa [lowBits_length]), acceptCommand_encode rfl s,
    fun _ haux => acceptCommand_of_aux (.inr (.inl rfl)) haux value he⟩

/-- Settles O27: a push of all 32 bits, which at an aligned `pos` are one word of the buffer. -/
theorem pushWordCommand : Obligations.PushWordCommand := by
  refine fun value s he => ⟨fun hl => ?effect, fun hl => exec_length rfl rfl he (by rwa [lowBits_length]),
    acceptCommand_encode rfl s, fun aux haux => acceptCommand_of_aux (.inr (.inr rfl)) haux value he⟩
  have heffect : exec (.pushWord value) s = .next (pushSeq (lowBits 32 value) s) :=
    exec_push rfl rfl he (by rwa [lowBits_length])
  refine ⟨?sequence, fun halign hne => ?aligned, fun hp => ?boundary⟩
  case sequence => rw [heffect, lowBits_eq_map]; rfl
  case aligned => rw [heffect, pushSeq_word_aligned halign hne]
  case boundary => exact ⟨_, heffect, pushSeq_word_fill hp⟩

/-- Settles O32: below the boundary the buffer holds its own bits with the pushed bits after them. -/
theorem closedFormInsideOneChunk : Obligations.ClosedFormInsideOneChunk := fun _ _ _ hb hw he hl hp htail =>
  ⟨_, exec_push hb hw he hl, by rw [pushSeq_within hp], pushSeq_total _ _, chunkNumber_pushSeq hp htail⟩

/-- Settles O34: the commands compared push the same bits. -/
theorem commandEquivalences : Obligations.CommandEquivalences := by
  refine fun s => ⟨fun b => ?oneBit, fun value hv => ?byte, fun value => ?word, fun bit m n h => ?counts,
    fun b0 b1 b2 b3 hl => ?bytes⟩
  case oneBit =>
    cases b <;> exact ⟨exec_ingestion_congr rfl rfl rfl, exec_ingestion_congr rfl rfl rfl⟩
  case byte => exact exec_ingestion_congr rfl rfl (decide_eq_true hv)
  case word => exact ⟨exec_ingestion_congr rfl rfl rfl, exec_ingestion_congr rfl rfl rfl⟩
  case counts =>
    by_cases hbit : 1 < bit.toNat
    · exact runBurst_pushBits_of_range hbit m n (m + n) s
    · have hl := h.resolve_left hbit
      have hsum : (m + n).toNat = m.toNat + n.toNat := BitVec.toNat_add_of_lt (by omega)
      have hw (c : BitVec 32) : (Instr.pushBits bit c).wellFormed = true := decide_eq_true (by omega)
      refine runBurst_eq_exec
        (xs := [List.replicate m.toNat (bit.getLsbD 0), List.replicate n.toNat (bit.getLsbD 0)]) rfl
        (by simp [hw]) ?_ (hw _) (by simpa [Nat.add_assoc] using hl)
      simp [pushedBits, hsum]
  case bytes =>
    have hw (b : BitVec 8) : (Instr.pushByte (b.setWidth 32)).wellFormed = true := by
      have := b.isLt
      exact decide_eq_true (by rw [BitVec.toNat_setWidth]; omega)
    refine runBurst_eq_exec (xs := [lowBits 8 (b0.setWidth 32), lowBits 8 (b1.setWidth 32),
      lowBits 8 (b2.setWidth 32), lowBits 8 (b3.setWidth 32)]) rfl (by simp [hw]) ?_ rfl (by simpa using hl)
    simp [pushedBits, lowBits_bytes]

end Sys2Proof.Machine
end

section
/-! SUPPORT. Finalization (42_finalization.md): the padding count, what the padded chunks hold, the words of `HASH`, and
a peek before a burst. -/

namespace Sys2Proof.Machine

/-! ### The padding count -/

/-- The padding ends in the chunk it began in (42_finalization.md R151, R154). -/
theorem padZeros_of_le {L : Nat} (h : L % 512 ≤ 447) : padZeros L = 447 - L % 512 := by unfold padZeros; omega

/-- The padding needs another chunk (42_finalization.md R151, R154). -/
theorem padZeros_of_ge {L : Nat} (h : 448 ≤ L % 512) : padZeros L = 959 - L % 512 := by unfold padZeros; omega

/-! ### The padding -/

/-- The 64 length bits as bits of the register (42_finalization.md R152). -/
theorem lengthBits_toNat (L : BitVec 64) : lengthBits L.toNat = (List.range 64).map fun i => L.getLsbD (63 - i) := rfl

/-- The padding as the pushes of 42_finalization.md R150, with `K` as R151 writes it. -/
theorem appendPadding_eq_pushes (s : State) :
    appendPadding s = pushSeq ((List.range 64).map fun i => s.total.getLsbD (63 - i))
      ((pushBit false)^[((447 - (s.total.toNat : Int)) % 512).toNat] (pushBit true s)) := by
  rw [appendPadding_eq, paddingBits, pushSeq_cons, pushSeq_append, pushSeq_replicate, padZeros_eq, lengthBits_toNat]

/-- Pushes that end exactly on the second boundary: two compressions, of the buffered bits with the pushed bits after
them, and of the rest of the pushed bits. -/
theorem pushSeq_fill_two {bs : List Bool} {s : State} (h : s.pos.val + bs.length = 1024) :
    ∃ first last, (pushSeq bs s).h = compress (compress s.h first) last ∧
      (∀ q : Fin 512, chunkReadBit first q =
        if q.val < s.pos.val then chunkReadBit s.chunk q else bs.getD (q.val - s.pos.val) false) ∧
      ∀ q : Fin 512, chunkReadBit last q = bs.getD (512 - s.pos.val + q.val) false := by
  have hpos := s.pos.isLt
  obtain ⟨as, cs, rfl, has⟩ : ∃ as cs, bs = as ++ cs ∧ as.length = 512 - s.pos.val :=
    ⟨_, _, (List.take_append_drop (512 - s.pos.val) bs).symm, by rw [List.length_take]; omega⟩
  rw [List.length_append] at h
  obtain ⟨first, hfirst, -, hbit⟩ := pushSeq_fill (bs := as) (s := s) (by omega)
  have hstart : (pushSeq as s).pos.val = 0 := by rw [pushSeq_pos]; omega
  obtain ⟨last, hlast, -, hbit'⟩ := pushSeq_fill (bs := cs) (s := pushSeq as s) (by omega)
  refine ⟨first, last, by rw [pushSeq_append, hlast, hfirst], fun q => ?_, fun q => ?_⟩
  · rw [hbit, List.getD_append _ _ _ _ (by omega)]
  · rw [hbit', hstart, if_neg (Nat.not_lt_zero _), Nat.sub_zero, List.getD_append_right _ _ _ _ (by omega), has,
      Nat.add_sub_cancel_left]

/-- Up to 447 buffered bits the padding fills the chunk (42_finalization.md R152, R154). -/
theorem appendPadding_h_of_le {s : State} (h : s.pos.val ≤ 447) :
    ∃ last, (appendPadding s).h = compress s.h last ∧ ∀ q : Fin 512, chunkReadBit last q =
      if q.val < s.pos.val then chunkReadBit s.chunk q
      else if q.val = s.pos.val then true
      else if q.val < 448 then false
      else s.total.getLsbD (511 - q.val) := by
  have hK : padZeros s.total.toNat = 447 - s.pos.val := padZeros_of_le h
  have hlen := paddingBits_length s.total
  obtain ⟨last, hh, -, hbit⟩ := pushSeq_fill (bs := paddingBits s.total) (s := s) (by omega)
  refine ⟨last, by rw [appendPadding_eq, hh], fun q => ?_⟩
  rw [hbit]
  refine ite_congr rfl (fun _ => rfl) fun hq => ?_
  rw [paddingBits_getD _ _ (by omega)]
  refine ite_congr (propext (by omega)) (fun _ => rfl) fun _ =>
    ite_congr (propext (by omega)) (fun _ => rfl) fun _ => ?_
  rw [show padZeros s.total.toNat + 64 - (q.val - s.pos.val) = 511 - q.val by omega]

/-- From 448 buffered bits on the padding fills the chunk and one more (42_finalization.md R152, R154). -/
theorem appendPadding_h_of_ge {s : State} (h : 448 ≤ s.pos.val) :
    ∃ first last, (appendPadding s).h = compress (compress s.h first) last ∧
      (∀ q : Fin 512, chunkReadBit first q =
        if q.val < s.pos.val then chunkReadBit s.chunk q else if q.val = s.pos.val then true else false) ∧
      ∀ q : Fin 512, chunkReadBit last q = if q.val < 448 then false else s.total.getLsbD (511 - q.val) := by
  have hpos := s.pos.isLt
  have hK : padZeros s.total.toNat = 959 - s.pos.val := padZeros_of_ge h
  have hlen := paddingBits_length s.total
  obtain ⟨first, last, hh, hfirst, hlast⟩ := pushSeq_fill_two (bs := paddingBits s.total) (s := s) (by omega)
  refine ⟨first, last, by rw [appendPadding_eq, hh], fun q => ?_, fun q => ?_⟩
  · rw [hfirst]
    refine ite_congr rfl (fun _ => rfl) fun hq => ?_
    rw [paddingBits_getD _ _ (by omega)]
    exact ite_congr (propext (by omega)) (fun _ => rfl) fun _ => if_pos (by omega)
  · rw [hlast, paddingBits_getD _ _ (by omega), if_neg (by omega)]
    refine ite_congr (propext (by omega)) (fun _ => rfl) fun _ => ?_
    rw [show padZeros s.total.toNat + 64 - (512 - s.pos.val + q.val) = 511 - q.val by omega]

/-! ### The two forms of `HASH` -/

/-- After a destructive `HASH` the engine carries the empty message, whatever it held (42_finalization.md R155). -/
theorem hashEffect_false_carries (s : State) : (hashEffect false s).Carries [] := by
  rw [hashEffect_false]; exact carries_nil rfl rfl rfl

/-- Between commands a peek changes the digest register and its flag only (42_finalization.md R156). -/
theorem hashEffect_true_of_collecting {s : State} (hp : s.phase = .collecting) :
    hashEffect true s = { s with D := (appendPadding s).h, digestValid := true } := by
  rw [hashEffect_true, ← hp]

/-- `HASH` must have zero fields `aux[11:1]` and `data` (30_encoding.md R73, R76). -/
theorem acceptCommand_hash_of_mbz {aux : BitVec 12} {data : BitVec 32} (h : 1 < aux.toNat ∨ data ≠ 0) {s : State}
    (he : s.err = .noFault) : acceptCommand (commandWord 0x8 aux data) s = .next { s with err := .errIllegal } := by
  have hm : nonZeroMbz (commandWord 0x8 aux data) :=
    .inr (.inr ⟨opField_commandWord _ _ _, by rwa [auxField_commandWord, dataField_commandWord]⟩)
  rw [acceptCommand_of_illegal (.inr hm), if_pos he]

/-- A burst of ingestion commands and a destructive `HASH` that ends without a fault does not depend on the digest
register and its flag (42_finalization.md R156). -/
theorem runBurst_hash_setDigest {is : List Instr} {s u : State} (hi : ∀ i ∈ is, isIngestion i)
    (hu : runBurst (is ++ [.hash false]) s = .next u) (he : u.err = .noFault) (D : Vector Word 8) (valid : Bool) :
    runBurst (is ++ [.hash false]) { s with D := D, digestValid := valid } = .next u := by
  induction is generalizing s with
  | nil =>
    rw [List.nil_append, runBurst_cons (exec_hash false s)] at hu
    obtain rfl := next_inj.mp hu
    by_cases hs : s.err = .noFault
    · rw [List.nil_append, runBurst_cons (exec_hash_setDigest hs D valid), whenOperational_of_noFault hs]; rfl
    · rw [whenOperational_of_fault hs] at he
      exact absurd he hs
  | cons i is ih =>
    obtain ⟨bits, hb⟩ := Option.isSome_iff_exists.mp (hi i List.mem_cons_self)
    obtain ⟨t, ht⟩ := exec_next i s
    rw [List.cons_append, runBurst_cons ht] at hu
    rw [List.cons_append, runBurst_cons (exec_ingestion_setDigest hb ht D valid)]
    exact ih (fun j hj => hi j (List.mem_cons_of_mem i hj)) hu

/-! ### The empty message -/

/-- The one chunk of the empty message is a 1 at the first bit address (42_finalization.md R157). -/
theorem chunkWriteBit_zeroChunk_first :
    chunkWriteBit zeroChunk 0 true = (Vector.replicate 16 0).set 0 0x80000000 := by decide

/-- On an engine that has received no bit the padding is the chunk of the empty message, whatever the buffer holds
(42_finalization.md R157). -/
theorem appendPadding_h_of_total_zero {s : State} (ht : s.total = 0) :
    (appendPadding s).h = compress s.h ((Vector.replicate 16 0).set 0 0x80000000) := by
  have hp : s.pos.val = 0 := by rw [pos_val, ht]; rfl
  obtain ⟨last, hh, hbit⟩ := appendPadding_h_of_le (s := s) (by omega)
  rw [hh, ← chunkWriteBit_zeroChunk_first]
  refine congrArg _ (chunk_ext fun q => ?_)
  rw [hbit, hp, ht, chunkReadBit_chunkWriteBit, chunkReadBit_zeroChunk, if_neg (Nat.not_lt_zero _)]
  exact ite_congr (propext Fin.val_eq_zero_iff) (fun _ => rfl) fun _ => ite_eq_left_iff.mpr fun _ => BitVec.getLsbD_zero

/-- The value of the digest of the empty message (42_finalization.md R157). -/
theorem compress_emptyMessage :
    compress IV ((Vector.replicate 16 0).set 0 0x80000000) =
      #v[0xe3b0c442, 0x98fc1c14, 0x9afbf4c8, 0x996fb924, 0x27ae41e4, 0x649b934c, 0xa495991b, 0x7852b855] := by
  decide +kernel

end Sys2Proof.Machine
end

section
/-! SUPPORT. The obligations about finalization (42_finalization.md), and the message taken by ingestion (R158). -/

namespace Sys2Proof.Machine

/-- Settles O2: the word of `INIT` initialises, another word of its opcode is illegal, and `HASH` straight after `INIT`
is the burst of no pushes. -/
theorem initCommand : Obligations.InitCommand := by
  refine fun s => ⟨⟨_, exec_init s, acceptCommand_of_ok decodeCommand_initWord s, initialise_atReset s⟩,
    fun w hop hmbz => ?_, ?_⟩
  · have hm : nonZeroMbz w := .inl ⟨hop, hmbz⟩
    rw [acceptCommand_of_illegal (.inr hm)]
    exact ⟨fun he => by rw [if_pos he], fun he => by rw [if_neg he]⟩
  · obtain ⟨u, hu, -, hvalid, hD⟩ := runBurst_init_push_hash (is := []) (xs := []) rfl nofun (by decide) s
    exact ⟨u, hu, hD, hvalid⟩

/-- Settles O36: the command is its pushes, which append to the message carried. -/
theorem ingestionAppendsToTheMessage : Obligations.IngestionAppendsToTheMessage := by
  intro i bits m s hb hw he hc hl
  exact ⟨_, exec_push hb hw he (by rwa [hc.counted]), hc.pushSeq hl, (pushSeq_err _ _).trans he, pushSeq_D _ _,
    pushSeq_digestValid _ _⟩

/-- Settles O38: the effect by its form, the padding as the pushes of the pseudocode. -/
theorem hashCommand : Obligations.HashCommand := by
  refine fun p s he => ⟨⟨_, exec_hash_operational he, ?_⟩, acceptCommand_encode rfl s,
    fun _ _ h => acceptCommand_hash_of_mbz h he⟩
  have hpad := congrArg State.h (appendPadding_eq_pushes s)
  cases p with
  | false => rw [hashEffect_false, hpad]; rfl
  | true => rw [hashEffect_true, hpad]; rfl

/-- Settles O39: `D` takes the `h` of the padding, which fills one chunk or two. -/
theorem hashPadsOneOrTwoChunks : Obligations.HashPadsOneOrTwoChunks := by
  refine fun p s he => ⟨fun hp => ?_, fun hp => ?_⟩
  · obtain ⟨last, hh, hbit⟩ := appendPadding_h_of_le hp
    exact ⟨_, last, exec_hash_operational he, (hashEffect_D p s).trans hh, hbit⟩
  · obtain ⟨first, last, hh, hfirst, hlast⟩ := appendPadding_h_of_ge hp
    exact ⟨_, first, last, exec_hash_operational he, (hashEffect_D p s).trans hh, hfirst, hlast⟩

/-- Settles O40: the end state carries the empty message, whose digest the second `HASH` writes. -/
theorem destructiveHashEndState : Obligations.DestructiveHashEndState := by
  intro s he
  exact ⟨_, exec_hash_operational he, hashEffect_false s, fun m hc => hashEffect_digest false hc,
    _, exec_hash_operational ((hashEffect_err false s).trans he),
    hashEffect_digest false (hashEffect_false_carries s), hashEffect_digestValid _ _⟩

/-- Settles O41: a peek changes the digest register and its flag only, which nothing after it reads. -/
theorem peekPreservesTheMessage : Obligations.PeekPreservesTheMessage := by
  intro s he hp
  have hpeek := hashEffect_true_of_collecting hp
  refine ⟨_, exec_hash_operational he, ?_, fun m hc => hashEffect_digest true hc,
    ⟨_, ?_, exec_hash_operational he, by rw [hashEffect_D, hashEffect_D]⟩, fun is u hi hu hue => ?_⟩
  · rw [hashEffect_D]; exact hpeek
  · rw [hpeek]; exact exec_hash_setDigest he _ _
  · rw [hpeek]; exact runBurst_hash_setDigest hi hu hue _ _

/-- Settles O42: the digest by the message carried, and what the two forms leave carried. -/
theorem hashComputesTheDigestOfTheMessage : Obligations.HashComputesTheDigestOfTheMessage := fun _ _ hc he =>
  ⟨⟨_, exec_hash_operational he, hashEffect_digest false hc, hashEffect_digestValid _ _, hc.hashEffect false⟩,
    ⟨_, exec_hash_operational he, hashEffect_digest true hc, hashEffect_digestValid _ _, hc.hashEffect true⟩⟩

/-- Settles O43: the padding alone is the one chunk, and the kernel evaluates its compression. -/
theorem emptyMessageDigest : Obligations.EmptyMessageDigest := by
  intro p s he hh ht
  have hD : (hashEffect p s).D = compress IV ((Vector.replicate 16 0).set 0 0x80000000) := by
    rw [hashEffect_D, appendPadding_h_of_total_zero ht, hh]
  exact ⟨rfl, _, exec_hash_operational he, hashEffect_digestValid p s, hD, hD.trans compress_emptyMessage⟩

/-- Settles O37, by where the padding ends. -/
theorem paddingCount : Obligations.PaddingCount := by
  refine fun L => ⟨?_, ?_, ?_, fun k hk => ?_, padZeros_of_le, padZeros_of_ge⟩
  all_goals
    rcases Nat.lt_or_ge (L % 512) 448 with h | h
    · rw [padZeros_of_le (by omega)]; omega
    · rw [padZeros_of_ge h]; omega

end Sys2Proof.Machine
end

section
/-! SUPPORT. Compression (43_compression.md): the schedule word by word, `Ch` and `Maj` bit by bit, the final additions,
and the engine fed one whole chunk. -/

namespace Sys2Proof.Machine

/-! ### The message schedule -/

/-- The first sixteen words are the chunk's (43_compression.md R181): extending keeps them at the far end. -/
theorem schedule_getElem_of_lt (buf : Vector Word 16) {i : Nat} (hi : i < 16) :
    (schedule buf)[i] = chunkReadWord buf ⟨i, hi⟩ := by
  have hold : (newest buf).drop 48 = buf.toList.reverse := extendSchedule_drop 48 _
  rw [schedule_getElem buf i (by omega), show 63 - i = 48 + (15 - i) by omega, ← getD_drop_zero, hold,
    List.getD_eq_getElem _ _ (by simp; omega), List.getElem_reverse]
  simp [chunkReadWord, show 15 - (15 - i) = i by omega]

/-- A word that stood `k + 1` places before `w[i]`, in the schedule as it was before `w[i]`. -/
theorem schedule_getElem_sub (buf : Vector Word 16) {i k : Nat} (hi : i < 64) (hk : k < i) :
    (schedule buf)[i - (k + 1)] = ((newest buf).drop (64 - i)).getD k 0 := by
  rw [schedule_getElem buf _ (by omega), getD_drop_zero, show 63 - (i - (k + 1)) = 64 - i + k by omega]

/-- The recurrence of the other words (43_compression.md R181). -/
theorem schedule_getElem_of_ge (buf : Vector Word 16) {i : Nat} (hi : i < 64) (h16 : 16 ≤ i) :
    (schedule buf)[i] = (schedule buf)[i - 16] + sig0 (schedule buf)[i - 15] + (schedule buf)[i - 7] +
      sig1 (schedule buf)[i - 2] := by
  have hnew : (schedule buf)[i] = (scheduleStep ((newest buf).drop (64 - i))).getD 0 0 := by
    rw [← newest_drop buf i hi h16, getD_drop_zero, schedule_getElem buf i hi, Nat.add_zero]
  rw [hnew, schedule_getElem_sub buf hi (k := 15) (by omega), schedule_getElem_sub buf hi (k := 14) (by omega),
    schedule_getElem_sub buf hi (k := 6) (by omega), schedule_getElem_sub buf hi (k := 1) (by omega)]
  rfl

theorem sig0_zero : sig0 0 = 0 := by decide

theorem sig1_zero : sig1 0 = 0 := by decide

/-- The recurrence keeps zeros: no round constant enters the schedule (43_compression.md R181). -/
theorem schedule_zero_getElem (i : Nat) (hi : i < 64) : (schedule (Vector.replicate 16 0))[i] = 0 := by
  induction i using Nat.strong_induction_on with
  | _ i ih =>
    rcases Nat.lt_or_ge i 16 with h | h
    · rw [schedule_getElem_of_lt _ h, chunkReadWord, Vector.getElem_replicate]
    · rw [schedule_getElem_of_ge _ hi h, ih (i - 16) (by omega), ih (i - 15) (by omega), ih (i - 7) (by omega),
        ih (i - 2) (by omega), sig0_zero, sig1_zero]
      rfl

/-! ### `Ch`, `Maj` and the final additions -/

/-- `Ch` selects (43_compression.md R184). -/
theorem ch_getLsbD (x y z : Word) {i : Nat} (hi : i < 32) :
    (ch x y z).getLsbD i = if x.getLsbD i then y.getLsbD i else z.getLsbD i := by
  have hbit : (ch x y z).getLsbD i =
      ((x.getLsbD i && y.getLsbD i) ^^ (!x.getLsbD i && z.getLsbD i)) := by simp [ch, hi]
  rw [hbit]
  cases x.getLsbD i <;> simp

/-- The exclusive or of three pairwise products is the majority. -/
theorem xor_and_pairs_iff (a b c : Bool) :
    ((a && b) ^^ (a && c) ^^ (b && c)) = true ↔ 2 ≤ a.toNat + b.toNat + c.toNat := by
  revert a b c; decide

/-- `Maj` is the majority (43_compression.md R184). -/
theorem maj_getLsbD_iff (x y z : Word) (i : Nat) :
    (maj x y z).getLsbD i = true ↔ 2 ≤ (x.getLsbD i).toNat + (y.getLsbD i).toNat + (z.getLsbD i).toNat := by
  rw [← xor_and_pairs_iff, maj, BitVec.getLsbD_xor, BitVec.getLsbD_xor, BitVec.getLsbD_and, BitVec.getLsbD_and,
    BitVec.getLsbD_and]

/-- The final additions are word by word (43_compression.md R186). -/
theorem addWords_getElem (h v : Vector Word 8) (j : Nat) (hj : j < 8) : (addWords h v)[j] = h[j] + v[j] := by
  interval_cases j <;> rfl

/-! ### One whole chunk -/

/-- On a chunk boundary 512 more bits are one compression, and the engine stands on a boundary again
(43_compression.md R192). -/
theorem Fed.pushSeq_chunk {h0 : Vector Word 8} {bits : List Bool} {s : State} (f : Fed h0 [] s)
    (hl : bits.length = 512) : Fed (compress h0 (chunkOf bits)) [] (Machine.pushSeq bits s) := by
  obtain ⟨hashed, buffered, placed⟩ := f.pushSeq bits
  rw [List.nil_append, hl] at hashed buffered placed
  exact ⟨hashed, by rw [buffered, List.drop_eq_nil_of_le (by omega)]; rfl, placed⟩

end Sys2Proof.Machine
end

section
/-! SUPPORT. The obligations about compression (43_compression.md). -/

namespace Sys2Proof.Machine

/-- Settles O45: the chunk's words, the recurrence, and zeros by induction along it. -/
theorem messageSchedule : Obligations.MessageSchedule :=
  ⟨fun buf => ⟨fun _ => schedule_getElem_of_lt buf, fun _ => schedule_getElem_of_ge buf⟩, schedule_zero_getElem⟩

/-- Settles O46: the vectors are those after the first `n` rounds. -/
theorem compressionRounds : Obligations.CompressionRounds := fun h buf =>
  ⟨fun n => roundsUpTo n h (schedule buf), roundsUpTo_zero h _, fun i hi => roundsUpTo_succ i hi h _,
    addWords_getElem h _⟩

/-- Settles O49: one chunk pushed on a boundary, twice. -/
theorem chunkingProperty : Obligations.ChunkingProperty := by
  intro first second s hc h1 h2
  have f := hc.fed.pushSeq_chunk h1
  exact ⟨f.hashed, by rw [pushSeq_append]; exact (f.pushSeq_chunk h2).hashed⟩

/-- Settles O47: the definition, with the cleared chunk written out. -/
theorem compressChunkEffect : Obligations.CompressChunkEffect := fun _ => rfl

/-- Settles O48, by the bit of each function. -/
theorem chooseAndMajorityBitByBit : Obligations.ChooseAndMajorityBitByBit := fun x y z i hi =>
  ⟨ch_getLsbD x y z hi, maj_getLsbD_iff x y z i⟩

end Sys2Proof.Machine
end

section
/-! SUPPORT. What one instruction and one accepted word can do to `err`, and systems of engines under any interleaving
(60_exceptions.md). -/

namespace Sys2Proof.Machine

/-! ### The fault code after one command -/

variable {i : Instr} {s t : State}

/-- Everything an instruction can do to `err`: keep it, clear it by `INIT`, or raise one of the two faults of operands,
each of which changes nothing else (60_exceptions.md R212, R214, R216, R217). -/
theorem exec_err_cases (ht : exec i s = .next t) :
    t.err = s.err ∨ (i = .init ∧ t.err = .noFault) ∨
    (s.err = .noFault ∧ i.wellFormed = false ∧ t = { s with err := .errRange }) ∨
    (s.err = .noFault ∧ i.wellFormed = true ∧ t = { s with err := .errLength }) := by
  rcases instr_cases i with rfl | ⟨bits, hb⟩ | ⟨p, rfl⟩ | ⟨n, rfl | rfl⟩
  · cases ht; exact .inr (.inl ⟨rfl, rfl⟩)
  · obtain ⟨u, hu, c⟩ := exec_ingestion_cases hb s
    obtain rfl := next_inj.mp (hu.symm.trans ht)
    rcases c with ⟨_, rfl⟩ | ⟨he, hw, rfl⟩ | ⟨he, hw, _, rfl⟩ | ⟨_, _, _, rfl⟩
    · exact .inl rfl
    · exact .inr (.inr (.inl ⟨he, hw, rfl⟩))
    · exact .inr (.inr (.inr ⟨he, hw, rfl⟩))
    · exact .inl (pushSeq_err bits s)
  · rw [exec_hash, next_inj] at ht
    subst ht
    by_cases he : s.err = .noFault
    · rw [whenOperational_of_noFault he]; exact .inl (hashEffect_err p s)
    · rw [whenOperational_of_fault he]; exact .inl rfl
  · cases ht; exact .inl rfl
  · cases ht; exact .inl rfl

/-- Operands in range raise no `ERR_RANGE` (60_exceptions.md R212). -/
theorem exec_err_ne_errRange (hw : i.wellFormed = true) (he : s.err = .noFault) (ht : exec i s = .next t) :
    t.err ≠ .errRange := by
  rcases exec_err_cases ht with e | ⟨_, e⟩ | ⟨_, hw', _⟩ | ⟨_, _, rfl⟩
  · rw [e, he]; nofun
  · rw [e]; nofun
  · rw [hw] at hw'; cases hw'
  · nofun

/-- `ERR_RANGE` is the outcome exactly when an operand is out of range, whatever `total` is (60_exceptions.md R212,
R213). -/
theorem exec_eq_errRange_iff (he : s.err = .noFault) :
    exec i s = .next { s with err := .errRange } ↔ i.wellFormed = false := by
  refine ⟨fun ht => ?_, fun hw => exec_range hw he⟩
  exact Bool.eq_false_iff.mpr fun hw => exec_err_ne_errRange hw he ht rfl

/-- `ERR_RANGE` for an operand that has an upper bound only (60_exceptions.md R212). -/
theorem exec_eq_errRange_iff_lt {x bound : Nat} (hw : i.wellFormed = decide (x ≤ bound)) (he : s.err = .noFault) :
    exec i s = .next { s with err := .errRange } ↔ bound < x := by
  rw [exec_eq_errRange_iff he, hw, decide_eq_false_iff_not, Nat.not_le]

/-- `ERR_RANGE` for a width operand (60_exceptions.md R212). -/
theorem exec_eq_errRange_iff_width {width : BitVec 12} (hw : i.wellFormed = widthInRange width)
    (he : s.err = .noFault) :
    exec i s = .next { s with err := .errRange } ↔ width.toNat = 0 ∨ 32 < width.toNat := by
  rw [exec_eq_errRange_iff he, hw, widthInRange_eq_false_iff]

/-- An ingestion command in range ends with `ERR_LENGTH` exactly when its bits reach the length limit
(60_exceptions.md R217). -/
theorem exec_err_eq_errLength_iff {bits : List Bool} (hb : pushedBits i = some bits) (hw : i.wellFormed = true)
    (he : s.err = .noFault) (ht : exec i s = .next t) :
    t.err = .errLength ↔ 2 ^ 32 ≤ s.total.toNat + bits.length := by
  rcases Nat.lt_or_ge (s.total.toNat + bits.length) (2 ^ 32) with hl | hl
  · obtain rfl := next_inj.mp ((exec_push hb hw he hl).symm.trans ht)
    rw [pushSeq_err, he]
    exact iff_of_false nofun (by omega)
  · obtain rfl := next_inj.mp ((exec_length hb hw he hl).symm.trans ht)
    exact iff_of_true rfl hl

/-- An instruction that raises a fault changes `err` alone, and only from 0 (60_exceptions.md R214). -/
theorem exec_newFault (ht : exec i s = .next t) (hne : t.err ≠ s.err) (hf : t.err ≠ .noFault) :
    s.err = .noFault ∧ t = { s with err := t.err } := by
  rcases exec_err_cases ht with e | ⟨_, e⟩ | ⟨he, _, rfl⟩ | ⟨he, _, rfl⟩
  · exact absurd e hne
  · exact absurd e hf
  · exact ⟨he, rfl⟩
  · exact ⟨he, rfl⟩

/-- An accepted word that raises a fault changes `err` alone, and only from 0 (60_exceptions.md R214). -/
theorem acceptCommand_newFault {w : CmdWord} (ht : acceptCommand w s = .next t) (hne : t.err ≠ s.err)
    (hf : t.err ≠ .noFault) : s.err = .noFault ∧ t = { s with err := t.err } := by
  rcases acceptCommand_cases w s with ⟨i, _, e⟩ | ⟨r, _, e⟩
  · exact exec_newFault (e ▸ ht) hne hf
  · rw [e, next_inj] at ht
    subst ht
    rcases acceptIllegal_cases s with ⟨he, e'⟩ | ⟨_, e'⟩
    · rw [e']; exact ⟨he, rfl⟩
    · exact absurd (congrArg State.err e') hne

/-- BitEngine has no fault and clears none (30_encoding.md R79). -/
theorem evaluateBitEngine_err {ctl : BeWord} {x : Word} (ht : evaluateBitEngine ctl x s = .next t) :
    t.err = s.err := by
  unfold evaluateBitEngine decodeBitEngine at ht
  split at ht <;> cases ht <;> rfl

/-- The one word that leaves the fault state is the exact `INIT`, which initialises (60_exceptions.md R216). -/
theorem acceptCommand_leavesFault {w : CmdWord} (ht : acceptCommand w s = .next t) (hs : s.err ≠ .noFault)
    (hc : t.err = .noFault) : w = 0x100000000000 ∧ t = initialise s := by
  by_cases hw : w = 0x100000000000
  · rw [hw, acceptCommand_of_ok decodeCommand_initWord, exec_init, next_inj] at ht
    exact ⟨hw, ht.symm⟩
  · rw [acceptCommand_of_fault hw hs, next_inj] at ht
    exact absurd (ht ▸ hc) hs

/-! ### Several engines -/

/-- Steps of different engines commute (60_exceptions.md R223). -/
theorem stepEngine_comm (sys : System) {j k : Nat} (h : j ≠ k) :
    (sys.stepEngine j).stepEngine k = (sys.stepEngine k).stepEngine j := by
  refine List.ext_getElem? fun n => ?_
  simp only [stepEngine_getElem?]
  by_cases hj : j = n
  · subst hj; rw [if_pos rfl, if_neg h.symm, if_pos rfl, if_neg h.symm]
  · rw [if_neg hj, if_neg hj]

/-- After any interleaving each engine is where running alone for its own number of steps takes it
(60_exceptions.md R223). -/
theorem foldl_stepEngine_getElem? (order : List Nat) {sys : System} {k : Nat} {s : State} (h : sys[k]? = some s) :
    ∃ t, Host.Core.run Sys2Proof.core (order.count k) s = .next t ∧
      (order.foldl (fun sys j => sys.stepEngine j) sys)[k]? = some t := by
  induction order generalizing sys s with
  | nil => exact ⟨s, rfl, h⟩
  | cons j order ih =>
    by_cases hj : j = k
    · subst hj
      obtain ⟨u, hu⟩ := step_next s
      have hstep : (sys.stepEngine j)[j]? = some u := by
        rw [stepEngine_getElem?, if_pos rfl, h, Option.map_some, stepped_of_step hu]
      rw [List.count_cons_self, run_succ_of_step _ hu]
      exact ih hstep
    · rw [List.count_cons_of_ne hj]
      exact ih (by rwa [stepEngine_getElem?, if_neg hj])

end Sys2Proof.Machine
end

section
/-! SUPPORT. The obligations about faults, and about several engines (60_exceptions.md). -/

namespace Sys2Proof.Machine

/-- Settles O28: an operand out of range is an instruction that is not well formed. -/
theorem rangeFaultsAreExactlyThese : Obligations.RangeFaultsAreExactlyThese := fun _ he =>
  ⟨fun _ => exec_eq_errRange_iff_lt rfl he, fun _ _ => exec_eq_errRange_iff_lt rfl he,
    fun _ _ => ⟨exec_eq_errRange_iff_width rfl he, exec_eq_errRange_iff_width rfl he⟩,
    fun _ => exec_eq_errRange_iff_lt rfl he, fun _ hw _ => exec_err_ne_errRange hw he⟩

/-- Settles O29: a command in range faults on the length or is its pushes, and `HASH` keeps `err`. -/
theorem lengthFaults : Obligations.LengthFaults := by
  refine ⟨fun i bits s t hb hw he ht => ?_, fun p s t he ht => ?_⟩
  · have hiff := exec_err_eq_errLength_iff hb hw he ht
    refine ⟨hiff, fun hlen => ?_⟩
    exact next_inj.mp (ht.symm.trans (exec_length hb hw he (hiff.mp hlen)))
  · obtain rfl := next_inj.mp ((exec_hash_operational he).symm.trans ht)
    exact (hashEffect_err p s).trans he

/-- Settles O50, for instructions and for accepted words. -/
theorem faultChangesOnlyErr : Obligations.FaultChangesOnlyErr :=
  ⟨fun _ _ _ => exec_newFault, fun _ _ _ => acceptCommand_newFault⟩

/-- Settles O51: of the words that decode, only the exact `INIT` acts in the fault state. -/
theorem faultStateIgnoresCommands : Obligations.FaultStateIgnoresCommands := fun _ _ he hw =>
  acceptCommand_of_fault hw he

/-- Settles O52, by the event: a waiting word and BitEngine keep `err`. -/
theorem onlyInitAndResetLeaveTheFaultState : Obligations.OnlyInitAndResetLeaveTheFaultState := by
  intro e s t ht hs hc
  cases e with
  | reset => cases ht; exact ⟨.inl rfl, initialise_atReset s⟩
  | command w =>
    simp only [takeEvent] at ht
    split at ht
    · obtain ⟨rfl, rfl⟩ := acceptCommand_leavesFault ht hs hc
      exact ⟨.inr rfl, initialise_atReset s⟩
    · cases ht; exact absurd hc hs
  | bitEngine ctl x => exact absurd ((evaluateBitEngine_err ht).symm.trans hc) hs

/-- Settles O57: a step of the system is a step of one engine, so an interleaving gives each its own steps. -/
theorem enginesAreIndependent : Obligations.EnginesAreIndependent := by
  refine ⟨fun sys j s t hs ht => ?_, fun sys j k h => ⟨stepEngine_comm sys h, ?_⟩,
    fun order _ _ _ => foldl_stepEngine_getElem? order⟩
  · rw [stepEngine_getElem?, if_pos rfl, hs, Option.map_some, stepped_of_step ht]
  · rw [stepEngine_getElem?, if_neg h]

end Sys2Proof.Machine
end

section
/-! SUPPORT. The obligation that the core never stops (70_reset_and_hazards.md). -/

namespace Sys2Proof.Machine

/-- Settles O55: every instruction answers a next state, hence so does every accepted word and every port event. -/
theorem theCoreNeverStops : Obligations.TheCoreNeverStops := ⟨step_next, acceptCommand_next⟩

end Sys2Proof.Machine
end
